-- ==== Sys2Proof/Word.lean ====
section
/-! DEFINITION. The word types of the machine (spec 00_scope.md R7, R8, R14, 30_encoding.md R71): every value is an
unsigned bit vector of the width the spec gives it, and a field of an instruction word is a bit slice. -/

namespace Sys2Proof

/-- An 8-bit register, memory byte or immediate `kk` (R7). -/
abbrev Byte := BitVec 8

/-- A 16-bit register or instruction word (R8, R70). -/
abbrev Word := BitVec 16

/-- A 4-bit field: `x`, `y`, `n`, `op`, or a key code (R13, R71). -/
abbrev Nibble := BitVec 4

/-- The 12-bit address immediate `nnn` (R71). -/
abbrev Addr := BitVec 12

end Sys2Proof
end

