-- ==== Sys2Proof/Config.lean ====
section
/-! DEFINITION. What is fixed for a run but not by the spec: the free values. Each is an opaque constant, so no proof
can learn its value, and a claim about it holds whatever it is. -/

namespace Sys2Proof.Config

/-- How many nanoseconds pass between the `n`-th reading of the clock and the reading before it, where the run
supplies no reading (45_fx.md R182: a draw constrained only by monotonicity; log entry 10). A natural number, zero
included, so every monotonic schedule is admitted and no other. -/
opaque clockAdvance (n : Nat) : Nat

/-- The byte that the random source with this seed yields at its `n`-th draw, where the run supplies no draw
(42_index_jump_random.md R145: a draw, subject to no law; log entry 11). -/
opaque randomByte (seed n : Nat) : Byte

end Sys2Proof.Config
end

