-- ==== Sys2Proof/Machine/Params.lean ====
section
/-! DEFINITION. The model parameters the spec names, each with the spec's own default, and the constants of
00_scope.md §3. -/

namespace Sys2Proof.Machine

/-- `FONT` (20_memory.md R62, D24): the 16 glyphs of 5 bytes at addresses 0..79. PRESUMED: the bytes are general
knowledge (G1), not the source's (log entry 18). -/
def fontTable : List Byte :=
  [0xF0, 0x90, 0x90, 0x90, 0xF0,  0x20, 0x60, 0x20, 0x20, 0x70,
   0xF0, 0x10, 0xF0, 0x80, 0xF0,  0xF0, 0x10, 0xF0, 0x10, 0xF0] ++
  [0x90, 0x90, 0xF0, 0x10, 0x10,  0xF0, 0x80, 0xF0, 0x10, 0xF0,
   0xF0, 0x80, 0xF0, 0x90, 0xF0,  0xF0, 0x10, 0x20, 0x40, 0x40] ++
  [0xF0, 0x90, 0xF0, 0x90, 0xF0,  0xF0, 0x90, 0xF0, 0x10, 0xF0,
   0xF0, 0x90, 0xF0, 0x90, 0x90,  0xE0, 0x90, 0xE0, 0x90, 0xE0] ++
  [0xF0, 0x80, 0x80, 0x80, 0xF0,  0xE0, 0x90, 0x90, 0x90, 0xE0,
   0xF0, 0x80, 0xF0, 0x80, 0xF0,  0xF0, 0x80, 0xF0, 0x80, 0x80]

/-- `fx0a_holds_pc` (45_fx.md R184, D2, U6): whether FX0A with no key latched leaves PC where it is. The spec's
default is `false` (C1: PC advances regardless; log entry 13). -/
def fx0aHoldsPc : Bool := false

/-- `vf_shift_self` (41_alu.md R128, R130, D9, U7): the final VF of 8FY6 and 8FYE as a function of the sub-nibble and
of VF before. The spec's default is the shifted value (log entry 14). -/
def vfShiftSelf (sub : Nibble) (vx0 : Byte) : Byte :=
  if sub = 0x6#4 then vx0 >>> 1 else vx0 <<< 1

/-- The first address of program space, where a program is loaded (00_scope.md R12). -/
def programBase : Nat := 0x200

/-- The bytes of program space 0x200–0xFFF, the longest program accepted (70_reset_and_hazards.md R233, D20). -/
def romMax : Nat := 0xE00

/-- `TICK`: 16 milliseconds, in nanoseconds (00_scope.md R11, 45_fx.md R181). -/
def tickNs : Nat := 16000000

end Sys2Proof.Machine
end

