-- ==== Sys2Proof/Machine/State.lean ====
section
/-! DEFINITION. Everything the spec gives the machine, as plain data, and the machine right after reset
(spec 10_state.md). -/

namespace Sys2Proof.Machine

/-- Memory (10_state.md R32): (address, byte) pairs in one canonical form, addresses strictly rising, no entry equal
to what an unlisted address reads as (`Memory.wf` and `Memory.resetByte` of Ops). -/
abbrev Memory := List Host.Cell

/-- The framebuffer (10_state.md R33): 32 rows of 64 cells, each 0 (`false`) or 1 (`true`). -/
abbrev FrameBuffer := Vector (Vector Bool 64) 32

/-- The causes of a fatal fault (60_exceptions.md R200). -/
inductive FaultCause where
  /-- Code 1: the step fetched an illegal word (R201). -/
  | decodeFailure
  /-- Code 2: 2NNN at `SP = 15` (R202). -/
  | stackOverflow
  /-- Code 3: 00EE at `SP = 0` (R203). -/
  | stackUnderflow
  deriving DecidableEq, Repr

/-- The run state (10_state.md R37): `Running`, or `Faulted` with the cause, the faulting instruction's address and
its word. -/
inductive RunState where
  | running
  | faulted (cause : FaultCause) (pc : Word) (w : Word)
  deriving DecidableEq, Repr

/-- The random source (10_state.md R36). Its state is not architectural: each draw is a free value
(`Config.randomByte`), and these fields say which one comes next (log entry 11). -/
structure RandomSource where
  /-- The seed the host supplied (R49). -/
  seed : Nat
  /-- How many bytes have been drawn. -/
  drawn : Nat
  /-- The fixed sequence of draws a test run may supply (42_index_jump_random.md R145), what is left of it. -/
  supplied : List Byte
  deriving DecidableEq, Repr

/-- The monotonic clock as far as it has been read (45_fx.md R182). Each reading is a free value at or after the last
(`Config.clockAdvance`), and these fields say which one comes next (log entry 10). -/
structure Clock where
  /-- The latest reading, in nanoseconds. -/
  last : Nat
  /-- How many readings were taken. -/
  reads : Nat
  /-- The time until each coming reading where the run supplies it, in nanoseconds, what is left of it. -/
  supplied : List Nat
  deriving DecidableEq, Repr

/-- All the state of the block (10_state.md's table). -/
structure State where
  /-- `V0`–`VF` (R20). -/
  v : Vector Byte 16
  /-- The index register `I` (R23). -/
  i : Word
  /-- The program counter (R24). -/
  pc : Word
  /-- The call stack's 16 slots (R29). -/
  stack : Vector Word 16
  /-- The stack pointer (R29, R30). -/
  sp : Byte
  /-- The random source (R36). -/
  rng : RandomSource
  /-- The run state (R37). -/
  run : RunState
  /-- Memory (R32). -/
  mem : Memory
  /-- The framebuffer (R33). -/
  fb : FrameBuffer
  /-- The key latch: `none` or one code 0–15 (R34). -/
  key : Option Nibble
  /-- `T_START`: the timer's captured start instant, in nanoseconds (R35). -/
  tStart : Nat
  /-- `T_INIT`: the timer's initial magnitude (R35). -/
  tInit : Byte
  /-- The monotonic clock, as far as it has been read. -/
  clock : Clock
  deriving DecidableEq, Repr

/-- Reasons for which the machine stops. The spec's own faults are not among them: they are entered as a next state
whose `run` is `Faulted` (60_exceptions.md R205, log entry 1). -/
inductive Fault where
  /-- Raised by `step` on a block whose `run` is `Faulted`: no step is enabled (60_exceptions.md R206, U19 `stuck`).
  Safe: the hardware takes no step either. -/
  | stepWhileFaulted
  /-- Raised by RET when `SP` is above 15: the stack has no such slot (10_state.md R29, log entry 3). Safe: no run
  reaches such an `SP` (R30), and the machine stops. -/
  | stackSlotAbsent
  deriving DecidableEq, Repr

/-- Reasons for which the model gives an input no meaning. -/
inductive Refusal where
  /-- Raised by `exec` for an instruction not modelled yet (none is left). Safe: the machine stops. -/
  | notModelled (mnemonic : String)
  /-- Raised by the host operation `SetKey` for a value outside 0–15 (44_keys.md R172, U14). Safe: nothing happens. -/
  | keyCodeInvalid
  /-- Raised by the host operation `LoadRom` for an image of no bytes or of more than 3584 bytes
  (70_reset_and_hazards.md R233, U15). Safe: nothing happens. -/
  | romRejected
  deriving DecidableEq, Repr

/-- The machine right after reset, before a program is loaded (10_state.md R40–R49). `PC`, `SP` and the framebuffer
are the source's values; the others are the spec's decisions D3–D6 and D16 (log entries 1 and 4–9), and the clock and
the random source's fields are the model's own (log entries 9, 10, 11, 25). -/
def State.reset : State where
  v := Vector.replicate 16 0x00#8
  i := 0x0000#16
  pc := 0x0200#16
  stack := Vector.replicate 16 0x0000#16
  sp := 0x00#8
  rng := { seed := 0, drawn := 0, supplied := [] }
  run := .running
  mem := []
  fb := Vector.replicate 32 (Vector.replicate 64 false)
  key := none
  tStart := 0
  tInit := 0x00#8
  clock := { last := 0, reads := 0, supplied := [] }

end Sys2Proof.Machine
end

