-- ==== Sys2Proof/Machine/Ops.lean ====
section
/-! DEFINITION. The named operations over memory, registers, the call stack, the program counter and the run state,
each in one place. -/

namespace Sys2Proof.Machine

/-- What an instruction or a step answers. -/
abbrev Result := Host.Outcome State Fault Refusal

/-! ### Memory (20_memory.md) -/

/-- What an address that memory does not list reads as: the reset contents, the font at 0..79 and 0 elsewhere
(10_state.md R45; log entries 8 and 18). -/
def Memory.resetByte (a : Nat) : Byte := fontTable.getD a 0x00#8

/-- The byte at an address below 4096. -/
def Memory.read : Memory → Nat → Byte
  | [], a => Memory.resetByte a
  | (a', b) :: rest, a => if a' = a then b else Memory.read rest a

/-- The list without an entry for `a`. -/
def Memory.forget (m : Memory) (a : Nat) : Memory := m.filter (fun c => c.1 != a)

/-- The list with the entry `(a, b)` put before the first higher address. -/
def Memory.place : Memory → Nat → Byte → Memory
  | [], a, b => [(a, b)]
  | (a', b') :: rest, a, b =>
    if a < a' then (a, b) :: (a', b') :: rest else (a', b') :: Memory.place rest a b

/-- The memory after the byte `b` is written at `a`, in canonical form. -/
def Memory.write (m : Memory) (a : Nat) (b : Byte) : Memory :=
  if b = Memory.resetByte a then m.forget a else (m.forget a).place a b

/-- The canonical form from the address `lo` on: addresses strictly rising from `lo`, below 4096, and no entry equal
to what the unlisted address reads as. -/
def Memory.wfFrom : Nat → Memory → Bool
  | _, [] => true
  | lo, (a, b) :: rest =>
    decide (lo ≤ a) && decide (a < 4096) && decide (b ≠ Memory.resetByte a) && Memory.wfFrom (a + 1) rest

/-- The canonical form of memory. -/
def Memory.wf (m : Memory) : Bool := Memory.wfFrom 0 m

/-- The 12-bit mask that every access applies to its address (R50). -/
def maskAddr (a : Word) : Nat := (a &&& 0x0FFF#16).toNat

/-- `MemRead(a, 1)` (R51). -/
def State.memRead (s : State) (a : Word) : Byte := Memory.read s.mem (maskAddr a)

/-- `MemWrite(a, 1, b)` (R52). -/
def State.memWrite (s : State) (a : Word) (b : Byte) : State :=
  { s with mem := Memory.write s.mem (maskAddr a) b }

/-- The fetched word: the byte at PC is bits 15..8, the byte at PC + 1 modulo 2^16 is bits 7..0 (R55). -/
def State.fetchWord (s : State) : Word := s.memRead s.pc ++ s.memRead (s.pc + 1#16)

/-- The state with the word `w` where the next step fetches, and running, since only a running block fetches
(30_encoding.md R80). -/
def State.placeWord (s : State) (w : Word) : State :=
  { (s.memWrite s.pc (w.extractLsb' 8 8)).memWrite (s.pc + 1#16) (w.extractLsb' 0 8) with run := .running }

/-- The bytes `bs` written at `a`, `a + 1`, … in that order. -/
def State.memWriteAll (s : State) (a : Word) : List Byte → State
  | [] => s
  | b :: bs => (s.memWrite a b).memWriteAll (a + 1#16) bs

/-! ### Registers (10_state.md R20–R28) -/

/-- `V[x]`. -/
def State.getV (s : State) (x : Nibble) : Byte := s.v[x.toNat]'x.isLt

/-- `V[x] <- b`. -/
def State.setV (s : State) (x : Nibble) (b : Byte) : State := { s with v := s.v.set x.toNat b x.isLt }

/-- The number of `VF`, the flag register (R21). -/
abbrev vf : Nibble := 0xF#4

/-- `I <- a`. -/
def State.setI (s : State) (a : Word) : State := { s with i := a }

/-- `MemWrite(a + k, 1, V[k])` for `k` from 0 up to `n - 1`, in that order (45_fx.md R190). -/
def State.storeRegs (s : State) (a : Word) : Nat → State
  | 0 => s
  | k + 1 => (s.storeRegs a k).memWrite (a + BitVec.ofNat 16 k) (s.getV (BitVec.ofNat 4 k))

/-- `V[k] <- MemRead(a + k, 1)` for `k` from 0 up to `n - 1`, in that order (45_fx.md R191). -/
def State.loadRegs (s : State) (a : Word) : Nat → State
  | 0 => s
  | k + 1 => (s.loadRegs a k).setV (BitVec.ofNat 4 k) (s.memRead (a + BitVec.ofNat 16 k))

/-! ### The program counter (R24–R27): `exec` reads `s.pc` as `pc0` (30_encoding.md R81) -/

/-- `PC <- target`. -/
def State.jump (s : State) (target : Word) : State := { s with pc := target }

/-- `PC <- (pc0 + 2) mod 2^16`. -/
def State.advance (s : State) : State := { s with pc := s.pc + 2#16 }

/-- `PC <- (pc0 + 4) mod 2^16` when the test holds, else `(pc0 + 2) mod 2^16`. -/
def State.skipIf (s : State) (test : Bool) : State := { s with pc := s.pc + if test then 4#16 else 2#16 }

/-! ### The call stack (R29–R31) -/

/-- `SP <- SP + 1; STACK[SP] <- a`, for `SP` below 15. -/
def State.push (s : State) (a : Word) : State :=
  { s with sp := s.sp + 1#8, stack := s.stack.setIfInBounds (s.sp + 1#8).toNat a }

/-- `STACK[SP]`, where the stack has that slot. -/
def State.top? (s : State) : Option Word := s.stack[s.sp.toNat]?

/-- `SP <- SP - 1`. -/
def State.drop (s : State) : State := { s with sp := s.sp - 1#8 }

/-! ### Faults (60_exceptions.md R205) -/

/-- The code of a cause (R200). -/
def FaultCause.code : FaultCause → Nat
  | .decodeFailure => 1
  | .stackOverflow => 2
  | .stackUnderflow => 3

/-- `raise Fault(cause, pc, w)`: nothing but `run` changes, and `PC` stays at the faulting instruction, whose address
the record holds (R205, R82; log entry 1). -/
def State.raise (s : State) (cause : FaultCause) (w : Word) : State := { s with run := .faulted cause s.pc w }

end Sys2Proof.Machine
end

