-- ==== Sys2Proof/Machine/Flags.lean ====
section
/-! DEFINITION. Every flag the instruction set computes (10_state.md R28, 41_alu.md R131). Each compares the exact
unsigned values of the operands latched before the instruction. -/

namespace Sys2Proof.Machine

/-- A flag as VF holds it: 1 or 0. -/
def flagByte (b : Bool) : Byte := if b then 0x01#8 else 0x00#8

/-- 8XY4's carry: the 9-bit sum exceeds 255 (R126). -/
def carryOut (vx0 vy0 : Byte) : Bool := decide (vx0.toNat + vy0.toNat > 255)

/-- 8XY5's not-borrow: `vx0 >= vy0` (R127). -/
def notBorrow (vx0 vy0 : Byte) : Bool := !decide (vx0.toNat < vy0.toNat)

/-- 8XY7's flag: `vy0 > vx0`, strictly (R129). -/
def strictlyAbove (vx0 vy0 : Byte) : Bool := decide (vy0.toNat > vx0.toNat)

/-- 8XY6's flag: the bit shifted out at the bottom (R128). -/
def bitOutLow (vx0 : Byte) : Bool := vx0.getLsbD 0

/-- 8XYE's flag: the bit shifted out at the top (R130). -/
def bitOutHigh (vx0 : Byte) : Bool := vx0.getLsbD 7

/-- `V[x] <- r; V[15] <- flag`: the flag is written last and wins when `x = 15` (8XY4, 8XY5, 8XY7; 00_scope.md R16,
70_reset_and_hazards.md R238). -/
def State.setResultThenFlag (s : State) (x : Nibble) (r : Byte) (flag : Bool) : State :=
  (s.setV x r).setV vf (flagByte flag)

/-- `V[15] <- flag; V[x] <- r`: the result is written last, and for `x = 15` it is `vf_shift_self` of the sub-nibble
and VF before (8XY6, 8XYE; R128, R130, R238; log entry 14). -/
def State.setFlagThenShift (s : State) (sub x : Nibble) (r : Byte) (flag : Bool) : State :=
  (s.setV vf (flagByte flag)).setV x (if x = vf then vfShiftSelf sub (s.getV x) else r)

end Sys2Proof.Machine
end

