-- ==== Sys2Proof/Machine/Alu.lean ====
section
/-! DEFINITION. Families 6–8: register loads and the ALU (spec 41_alu.md). Every operand is latched before any write
(00_scope.md R16), and all arithmetic is unsigned 8-bit. -/

namespace Sys2Proof.Machine

/-- 6XKK LD Vx, byte (R120). -/
def execLdVxByte (x : Nibble) (kk : Byte) (s : State) : Result := .next (s.setV x kk).advance

/-- 7XKK ADD Vx, byte (R121): no carry flag. -/
def execAddVxByte (x : Nibble) (kk : Byte) (s : State) : Result := .next (s.setV x (s.getV x + kk)).advance

/-- 8XY0 LD Vx, Vy (R122). -/
def execLdVxVy (x y : Nibble) (s : State) : Result := .next (s.setV x (s.getV y)).advance

/-- 8XY1 OR Vx, Vy (R123): VF is not reset. -/
def execOrVxVy (x y : Nibble) (s : State) : Result := .next (s.setV x (s.getV x ||| s.getV y)).advance

/-- 8XY2 AND Vx, Vy (R124): VF is not reset. -/
def execAndVxVy (x y : Nibble) (s : State) : Result := .next (s.setV x (s.getV x &&& s.getV y)).advance

/-- 8XY3 XOR Vx, Vy (R125): VF is not reset. -/
def execXorVxVy (x y : Nibble) (s : State) : Result := .next (s.setV x (s.getV x ^^^ s.getV y)).advance

/-- 8XY4 ADD Vx, Vy (R126): the sum, then VF = carry. -/
def execAddVxVy (x y : Nibble) (s : State) : Result :=
  .next (s.setResultThenFlag x (s.getV x + s.getV y) (carryOut (s.getV x) (s.getV y))).advance

/-- 8XY5 SUB Vx, Vy (R127): the difference, then VF = not borrow. -/
def execSubVxVy (x y : Nibble) (s : State) : Result :=
  .next (s.setResultThenFlag x (s.getV x - s.getV y) (notBorrow (s.getV x) (s.getV y))).advance

/-- 8XY6 SHR Vx (R128): VF = the bit shifted out, then the shifted value; in place, whatever `y` is. -/
def execShrVx (x : Nibble) (s : State) : Result :=
  .next (s.setFlagThenShift 0x6 x (s.getV x >>> 1) (bitOutLow (s.getV x))).advance

/-- 8XY7 SUBN Vx, Vy (R129): the reverse difference, then VF = `vy0 > vx0`. -/
def execSubnVxVy (x y : Nibble) (s : State) : Result :=
  .next (s.setResultThenFlag x (s.getV y - s.getV x) (strictlyAbove (s.getV x) (s.getV y))).advance

/-- 8XYE SHL Vx (R130): VF = the bit shifted out, then the shifted value; in place, whatever `y` is. -/
def execShlVx (x : Nibble) (s : State) : Result :=
  .next (s.setFlagThenShift 0xE x (s.getV x <<< 1) (bitOutHigh (s.getV x))).advance

end Sys2Proof.Machine
end

