-- ==== Sys2Proof/Syntax.lean ====
section
/-! DEFINITION. The instruction set: one constructor for each of the 35 rows of spec/opcode_table.json
(30_encoding.md R73), carrying exactly the operand fields the row names. An ignored field (`y` of 8XY6 and 8XYE,
`x` of FX18: R75) selects nothing and is not carried (log entry 21). -/

namespace Sys2Proof

inductive Instr where
  /-- 00E0 CLS, R100. -/
  | cls
  /-- 00EE RET, R101. -/
  | ret
  /-- 0NNN SYS addr, R102; never the words 00E0 and 00EE. -/
  | sysAddr (nnn : Addr)
  /-- 1NNN JP addr, R103. -/
  | jpAddr (nnn : Addr)
  /-- 2NNN CALL addr, R104. -/
  | callAddr (nnn : Addr)
  /-- 3XKK SE Vx, byte, R105. -/
  | seVxByte (x : Nibble) (kk : Byte)
  /-- 4XKK SNE Vx, byte, R106. -/
  | sneVxByte (x : Nibble) (kk : Byte)
  /-- 5XY0 SE Vx, Vy, R107. -/
  | seVxVy (x y : Nibble)
  /-- 6XKK LD Vx, byte, R120. -/
  | ldVxByte (x : Nibble) (kk : Byte)
  /-- 7XKK ADD Vx, byte, R121. -/
  | addVxByte (x : Nibble) (kk : Byte)
  /-- 8XY0 LD Vx, Vy, R122. -/
  | ldVxVy (x y : Nibble)
  /-- 8XY1 OR Vx, Vy, R123. -/
  | orVxVy (x y : Nibble)
  /-- 8XY2 AND Vx, Vy, R124. -/
  | andVxVy (x y : Nibble)
  /-- 8XY3 XOR Vx, Vy, R125. -/
  | xorVxVy (x y : Nibble)
  /-- 8XY4 ADD Vx, Vy, R126. -/
  | addVxVy (x y : Nibble)
  /-- 8XY5 SUB Vx, Vy, R127. -/
  | subVxVy (x y : Nibble)
  /-- 8XY6 SHR Vx, R128; the `y` field is ignored. -/
  | shrVx (x : Nibble)
  /-- 8XY7 SUBN Vx, Vy, R129. -/
  | subnVxVy (x y : Nibble)
  /-- 8XYE SHL Vx, R130; the `y` field is ignored. -/
  | shlVx (x : Nibble)
  /-- 9XY0 SNE Vx, Vy, R140. -/
  | sneVxVy (x y : Nibble)
  /-- ANNN LD I, addr, R141. -/
  | ldIAddr (nnn : Addr)
  /-- BNNN JP V0, addr, R142. -/
  | jpV0Addr (nnn : Addr)
  /-- CXKK RND Vx, byte, R143. -/
  | rndVxByte (x : Nibble) (kk : Byte)
  /-- DXYN DRW Vx, Vy, nibble, R152. -/
  | drw (x y n : Nibble)
  /-- EX9E SKP Vx, R173. -/
  | skpVx (x : Nibble)
  /-- EXA1 SKNP Vx, R174. -/
  | sknpVx (x : Nibble)
  /-- FX07 LD Vx, DT, R183. -/
  | ldVxDt (x : Nibble)
  /-- FX0A LD Vx, K, R184. -/
  | ldVxK (x : Nibble)
  /-- FX15 LD DT, Vx, R185. -/
  | ldDtVx (x : Nibble)
  /-- FX18 LD ST, Vx, R186; the `x` field is ignored. -/
  | ldStVx
  /-- FX1E ADD I, Vx, R187. -/
  | addIVx (x : Nibble)
  /-- FX29 LD F, Vx, R188. -/
  | ldFVx (x : Nibble)
  /-- FX33 LD B, Vx, R189. -/
  | ldBVx (x : Nibble)
  /-- FX55 LD [I], Vx, R190. -/
  | ldMemVx (x : Nibble)
  /-- FX65 LD Vx, [I], R191. -/
  | ldVxMem (x : Nibble)
  deriving DecidableEq, Repr

end Sys2Proof
end

