-- ==== Sys2Proof/WellFormed.lean ====
section
/-! DEFINITION. Which instruction terms stand for a word of their own row. Every operand field is as wide as its bit
slice, so no operand is out of range (30_encoding.md R72). The only check left is R73's: the words 00E0 and 00EE are
CLS and RET, never SYS. -/

namespace Sys2Proof

/-- `SYS nnn` is the reading of `0NNN` only when the word is neither `00E0` nor `00EE` (R73, R102). -/
def Instr.wellFormed : Instr → Bool
  | .sysAddr nnn => nnn != 0x0E0#12 && nnn != 0x0EE#12
  | .cls | .ret | .jpAddr _ | .callAddr _ | .seVxByte _ _ | .sneVxByte _ _ | .seVxVy _ _ | .ldVxByte _ _
  | .addVxByte _ _ | .ldVxVy _ _ | .orVxVy _ _ | .andVxVy _ _ | .xorVxVy _ _ | .addVxVy _ _ | .subVxVy _ _
  | .shrVx _ | .subnVxVy _ _ | .shlVx _ | .sneVxVy _ _ | .ldIAddr _ | .jpV0Addr _ | .rndVxByte _ _ | .drw _ _ _
  | .skpVx _ | .sknpVx _ | .ldVxDt _ | .ldVxK _ | .ldDtVx _ | .ldStVx | .addIVx _ | .ldFVx _ | .ldBVx _
  | .ldMemVx _ | .ldVxMem _ => true

/-- `i.wellFormed` as a proposition. -/
abbrev Instr.WellFormed (i : Instr) : Prop := i.wellFormed = true

end Sys2Proof
end

