-- ==== Sys2Proof/Decode.lean ====
section
/-! DEFINITION. Decoding and encoding (spec 30_encoding.md). Every instruction is one 16-bit word in two big-endian
bytes (R70). `decodeWord` is R73's procedure; a word that no row selects is refused by the name of its group (R74). -/

namespace Sys2Proof

/-- Why bytes are no instruction: one of R74's five groups of illegal words, or fewer than two bytes to read. -/
inductive DecodeReject where
  /-- `5XYn` with `n ≠ 0`. -/
  | family5 (w : Word)
  /-- `8XYn` with `n` in 8, 9, A, B, C, D, F. -/
  | family8 (w : Word)
  /-- `9XYn` with `n ≠ 0`. -/
  | family9 (w : Word)
  /-- `EXkk` with `kk` other than 9E, A1. -/
  | familyE (w : Word)
  /-- `FXkk` with `kk` other than 07, 0A, 15, 18, 1E, 29, 33, 55, 65. -/
  | familyF (w : Word)
  /-- Fewer than two bytes: no instruction word (R70). -/
  | truncated
  deriving DecidableEq, Repr

/-- `op = w[15:12]` (R71). -/
def fieldOp (w : Word) : Nibble := w.extractLsb' 12 4
/-- `x = w[11:8]` (R71). -/
def fieldX (w : Word) : Nibble := w.extractLsb' 8 4
/-- `y = w[7:4]` (R71). -/
def fieldY (w : Word) : Nibble := w.extractLsb' 4 4
/-- `n = w[3:0]` (R71). -/
def fieldN (w : Word) : Nibble := w.extractLsb' 0 4
/-- `kk = w[7:0]` (R71). -/
def fieldKK (w : Word) : Byte := w.extractLsb' 0 8
/-- `nnn = w[11:0]` (R71). -/
def fieldNNN (w : Word) : Addr := w.extractLsb' 0 12

/-- The first byte of a word, bits 15..8 (R55). -/
def hiByte (w : Word) : Byte := w.extractLsb' 8 8
/-- The second byte of a word, bits 7..0 (R55). -/
def loByte (w : Word) : Byte := w.extractLsb' 0 8
/-- The word whose first byte is `hi` and second byte `lo`: big-endian (R55). -/
def wordOfBytes (hi lo : Byte) : Word := hi ++ lo

/-- Family 0: `00E0`, `00EE`, and every other word a SYS jump (R73). -/
def decodeFamily0 (w : Word) : Instr :=
  if w = 0x00E0#16 then .cls else if w = 0x00EE#16 then .ret else .sysAddr (fieldNNN w)

/-- Family 8: the sub-opcode is `n` (R73). -/
def decodeFamily8 (w : Word) : Except DecodeReject Instr :=
  match fieldN w with
  | 0x0#4 => .ok (.ldVxVy (fieldX w) (fieldY w))
  | 0x1#4 => .ok (.orVxVy (fieldX w) (fieldY w))
  | 0x2#4 => .ok (.andVxVy (fieldX w) (fieldY w))
  | 0x3#4 => .ok (.xorVxVy (fieldX w) (fieldY w))
  | 0x4#4 => .ok (.addVxVy (fieldX w) (fieldY w))
  | 0x5#4 => .ok (.subVxVy (fieldX w) (fieldY w))
  | 0x6#4 => .ok (.shrVx (fieldX w))
  | 0x7#4 => .ok (.subnVxVy (fieldX w) (fieldY w))
  | 0xE#4 => .ok (.shlVx (fieldX w))
  | _ => .error (.family8 w)

/-- Family E: the sub-opcode is `kk` (R73). -/
def decodeFamilyE (w : Word) : Except DecodeReject Instr :=
  match fieldKK w with
  | 0x9E#8 => .ok (.skpVx (fieldX w))
  | 0xA1#8 => .ok (.sknpVx (fieldX w))
  | _ => .error (.familyE w)

/-- Family F: the sub-opcode is `kk` (R73). -/
def decodeFamilyF (w : Word) : Except DecodeReject Instr :=
  match fieldKK w with
  | 0x07#8 => .ok (.ldVxDt (fieldX w))
  | 0x0A#8 => .ok (.ldVxK (fieldX w))
  | 0x15#8 => .ok (.ldDtVx (fieldX w))
  | 0x18#8 => .ok .ldStVx
  | 0x1E#8 => .ok (.addIVx (fieldX w))
  | 0x29#8 => .ok (.ldFVx (fieldX w))
  | 0x33#8 => .ok (.ldBVx (fieldX w))
  | 0x55#8 => .ok (.ldMemVx (fieldX w))
  | 0x65#8 => .ok (.ldVxMem (fieldX w))
  | _ => .error (.familyF w)

/-- R73's procedure: dispatch on the top nibble. It depends on the word alone (R77). -/
def decodeWord (w : Word) : Except DecodeReject Instr :=
  match fieldOp w with
  | 0x0#4 => .ok (decodeFamily0 w)
  | 0x1#4 => .ok (.jpAddr (fieldNNN w))
  | 0x2#4 => .ok (.callAddr (fieldNNN w))
  | 0x3#4 => .ok (.seVxByte (fieldX w) (fieldKK w))
  | 0x4#4 => .ok (.sneVxByte (fieldX w) (fieldKK w))
  | 0x5#4 => if fieldN w = 0x0#4 then .ok (.seVxVy (fieldX w) (fieldY w)) else .error (.family5 w)
  | 0x6#4 => .ok (.ldVxByte (fieldX w) (fieldKK w))
  | 0x7#4 => .ok (.addVxByte (fieldX w) (fieldKK w))
  | 0x8#4 => decodeFamily8 w
  | 0x9#4 => if fieldN w = 0x0#4 then .ok (.sneVxVy (fieldX w) (fieldY w)) else .error (.family9 w)
  | 0xA#4 => .ok (.ldIAddr (fieldNNN w))
  | 0xB#4 => .ok (.jpV0Addr (fieldNNN w))
  | 0xC#4 => .ok (.rndVxByte (fieldX w) (fieldKK w))
  | 0xD#4 => .ok (.drw (fieldX w) (fieldY w) (fieldN w))
  | 0xE#4 => decodeFamilyE w
  | _ => decodeFamilyF w

/-- The instruction at the head of a list of bytes, with the bytes after it: two bytes, big-endian (R70). -/
def decodeBytes : List Byte → Except DecodeReject (Instr × List Byte)
  | hi :: lo :: rest => (decodeWord (wordOfBytes hi lo)).map (·, rest)
  | _ => .error .truncated

/-! ### The encoder, from the same table. An ignored field is written as 0. -/

/-- A word of format `op nnn`. -/
def formNNN (op : Nibble) (nnn : Addr) : Word := op ++ nnn
/-- A word of format `op x kk`. -/
def formXKK (op x : Nibble) (kk : Byte) : Word := op ++ x ++ kk
/-- A word of format `op x y n`. -/
def formXYN (op x y n : Nibble) : Word := op ++ x ++ y ++ n

/-- The word of an instruction (R73's table). -/
def encode : Instr → Word
  | .cls => 0x00E0#16
  | .ret => 0x00EE#16
  | .sysAddr nnn => formNNN 0x0 nnn
  | .jpAddr nnn => formNNN 0x1 nnn
  | .callAddr nnn => formNNN 0x2 nnn
  | .seVxByte x kk => formXKK 0x3 x kk
  | .sneVxByte x kk => formXKK 0x4 x kk
  | .seVxVy x y => formXYN 0x5 x y 0x0
  | .ldVxByte x kk => formXKK 0x6 x kk
  | .addVxByte x kk => formXKK 0x7 x kk
  | .ldVxVy x y => formXYN 0x8 x y 0x0
  | .orVxVy x y => formXYN 0x8 x y 0x1
  | .andVxVy x y => formXYN 0x8 x y 0x2
  | .xorVxVy x y => formXYN 0x8 x y 0x3
  | .addVxVy x y => formXYN 0x8 x y 0x4
  | .subVxVy x y => formXYN 0x8 x y 0x5
  | .shrVx x => formXYN 0x8 x 0x0 0x6
  | .subnVxVy x y => formXYN 0x8 x y 0x7
  | .shlVx x => formXYN 0x8 x 0x0 0xE
  | .sneVxVy x y => formXYN 0x9 x y 0x0
  | .ldIAddr nnn => formNNN 0xA nnn
  | .jpV0Addr nnn => formNNN 0xB nnn
  | .rndVxByte x kk => formXKK 0xC x kk
  | .drw x y n => formXYN 0xD x y n
  | .skpVx x => formXKK 0xE x 0x9E
  | .sknpVx x => formXKK 0xE x 0xA1
  | .ldVxDt x => formXKK 0xF x 0x07
  | .ldVxK x => formXKK 0xF x 0x0A
  | .ldDtVx x => formXKK 0xF x 0x15
  | .ldStVx => formXKK 0xF 0x0 0x18
  | .addIVx x => formXKK 0xF x 0x1E
  | .ldFVx x => formXKK 0xF x 0x29
  | .ldBVx x => formXKK 0xF x 0x33
  | .ldMemVx x => formXKK 0xF x 0x55
  | .ldVxMem x => formXKK 0xF x 0x65

/-- The two bytes of an instruction as memory holds them (R70, R55). -/
def encodeBytes (i : Instr) : List Byte := [hiByte (encode i), loByte (encode i)]

/-! ### The table's mask and match columns (R73) -/

/-- The `mask` column of an instruction's row. -/
def Instr.rowMask : Instr → Word
  | .cls | .ret => 0xFFFF
  | .sysAddr _ | .jpAddr _ | .callAddr _ | .seVxByte _ _ | .sneVxByte _ _ | .ldVxByte _ _ | .addVxByte _ _
  | .ldIAddr _ | .jpV0Addr _ | .rndVxByte _ _ | .drw _ _ _ => 0xF000
  | .seVxVy _ _ | .ldVxVy _ _ | .orVxVy _ _ | .andVxVy _ _ | .xorVxVy _ _ | .addVxVy _ _ | .subVxVy _ _
  | .shrVx _ | .subnVxVy _ _ | .shlVx _ | .sneVxVy _ _ => 0xF00F
  | .skpVx _ | .sknpVx _ | .ldVxDt _ | .ldVxK _ | .ldDtVx _ | .ldStVx | .addIVx _ | .ldFVx _ | .ldBVx _
  | .ldMemVx _ | .ldVxMem _ => 0xF0FF

/-- The `match` column of an instruction's row. -/
def Instr.rowMatch : Instr → Word
  | .cls => 0x00E0
  | .ret => 0x00EE
  | .sysAddr _ => 0x0000
  | .jpAddr _ => 0x1000
  | .callAddr _ => 0x2000
  | .seVxByte _ _ => 0x3000
  | .sneVxByte _ _ => 0x4000
  | .seVxVy _ _ => 0x5000
  | .ldVxByte _ _ => 0x6000
  | .addVxByte _ _ => 0x7000
  | .ldVxVy _ _ => 0x8000
  | .orVxVy _ _ => 0x8001
  | .andVxVy _ _ => 0x8002
  | .xorVxVy _ _ => 0x8003
  | .addVxVy _ _ => 0x8004
  | .subVxVy _ _ => 0x8005
  | .shrVx _ => 0x8006
  | .subnVxVy _ _ => 0x8007
  | .shlVx _ => 0x800E
  | .sneVxVy _ _ => 0x9000
  | .ldIAddr _ => 0xA000
  | .jpV0Addr _ => 0xB000
  | .rndVxByte _ _ => 0xC000
  | .drw _ _ _ => 0xD000
  | .skpVx _ => 0xE09E
  | .sknpVx _ => 0xE0A1
  | .ldVxDt _ => 0xF007
  | .ldVxK _ => 0xF00A
  | .ldDtVx _ => 0xF015
  | .ldStVx => 0xF018
  | .addIVx _ => 0xF01E
  | .ldFVx _ => 0xF029
  | .ldBVx _ => 0xF033
  | .ldMemVx _ => 0xF055
  | .ldVxMem _ => 0xF065

/-- The bits of an instruction's words that R75 says are ignored: `y` of 8XY6 and 8XYE, `x` of FX18. -/
def Instr.ignoredBits : Instr → Word
  | .shrVx _ | .shlVx _ => 0x00F0
  | .ldStVx => 0x0F00
  | .cls | .ret | .sysAddr _ | .jpAddr _ | .callAddr _ | .seVxByte _ _ | .sneVxByte _ _ | .seVxVy _ _
  | .ldVxByte _ _ | .addVxByte _ _ | .ldVxVy _ _ | .orVxVy _ _ | .andVxVy _ _ | .xorVxVy _ _ | .addVxVy _ _
  | .subVxVy _ _ | .subnVxVy _ _ | .sneVxVy _ _ | .ldIAddr _ | .jpV0Addr _ | .rndVxByte _ _ | .drw _ _ _
  | .skpVx _ | .sknpVx _ | .ldVxDt _ | .ldVxK _ | .ldDtVx _ | .addIVx _ | .ldFVx _ | .ldBVx _ | .ldMemVx _
  | .ldVxMem _ => 0x0000

/-! ### The opcode table's own numbering of an instruction's bits -/

/-- The first word of an instruction given as a number whose bit 0 is the word's least significant bit, of which
`nbits` bits are given and the rest are 0. -/
def tableWord (nbits w : Nat) : Word := BitVec.ofNat 16 (w % 2 ^ nbits)

/-- What the decoder reads from the instruction whose bits are `w`, laid out in memory's order of bytes. An
instruction has 16 bits (R70), so more than 16 bits are none. -/
def decodeTableWord (nbits w : Nat) : Option Instr :=
  if nbits ≤ 16 then
    match decodeBytes [hiByte (tableWord nbits w), loByte (tableWord nbits w)] with
    | .ok (i, _) => some i
    | .error _ => none
  else none

end Sys2Proof
end

