-- ==== Sys2Proof/Machine/Devices.lean ====
section
/-! DEFINITION. The devices the Cpu reaches through the Bus (60_exceptions.md R212): framebuffer, key latch and timer,
with the clock and the random source. -/

namespace Sys2Proof.Machine

/-! ### Framebuffer (43_draw.md) -/

/-- `FB[r][c]`. -/
def FrameBuffer.cell (fb : FrameBuffer) (r : BitVec 5) (c : BitVec 6) : Bool := (fb[r.toNat]'r.isLt)[c.toNat]'c.isLt

/-- `FB[r][c] <- b`. -/
def FrameBuffer.setCell (fb : FrameBuffer) (r : BitVec 5) (c : BitVec 6) (b : Bool) : FrameBuffer :=
  fb.set r.toNat ((fb[r.toNat]'r.isLt).set c.toNat b c.isLt) r.isLt

/-- `FbClear()` (R150). -/
def FrameBuffer.clear (_ : FrameBuffer) : FrameBuffer := Vector.replicate 32 (Vector.replicate 64 false)

/-- One pixel of `FbBlit`: the cell is XORed with the source bit; the answer says whether it went from 1 to 0
(R151). -/
def FrameBuffer.blitPixel (fb : FrameBuffer) (r : BitVec 5) (c : BitVec 6) (bit : Bool) : FrameBuffer × Bool :=
  (fb.setCell r c (Bool.xor (fb.cell r c) bit), fb.cell r c && !(Bool.xor (fb.cell r c) bit))

/-- The first `n` pixels of `FbBlit(b, x, row)`: pixel `k` is bit `7 - k` of the byte at column `(x + k) mod 64`
(R151). The row comes wrapped: it is below 32 by its type (log entry 28). -/
def FrameBuffer.blitPixels (fb : FrameBuffer) (b x : Byte) (row : BitVec 5) : Nat → FrameBuffer × Bool
  | 0 => (fb, false)
  | k + 1 =>
    let before := fb.blitPixels b x row k
    let now := before.1.blitPixel row (BitVec.ofNat 6 (x.toNat + k)) (b.getLsbD (7 - k))
    (now.1, before.2 || now.2)

/-- `FbBlit(b, x, row)`: the framebuffer after it and the collision bit (R151). -/
def FrameBuffer.blit (fb : FrameBuffer) (b x : Byte) (row : BitVec 5) : FrameBuffer × Bool :=
  fb.blitPixels b x row 8

/-- The first `n` rows of DXYN: row `r` of the sprite is the byte at `i0 + r`, drawn at row `(vy0 + r) mod 32` (R152).
The memory is that of `s`, the framebuffer too. -/
def State.drawRows (s : State) (i0 : Word) (vx0 vy0 : Byte) : Nat → FrameBuffer × Bool
  | 0 => (s.fb, false)
  | r + 1 =>
    let before := s.drawRows i0 vx0 vy0 r
    let now := before.1.blit (s.memRead (i0 + BitVec.ofNat 16 r)) vx0 (BitVec.ofNat 5 (vy0.toNat + r))
    (now.1, before.2 || now.2)

/-- `snapshot()`: 2048 bytes of 0 or 1, row-major (R153). -/
def FrameBuffer.snapshot (fb : FrameBuffer) : List Byte :=
  fb.toList.flatMap (fun row => row.toList.map (fun b => if b then 0x01#8 else 0x00#8))

/-! ### Key latch (44_keys.md) -/

/-- `KeyIsPressed(c)`: the latch holds exactly the code `c`, all eight bits of it (R170). -/
def State.keyIsPressed (s : State) (c : Byte) : Bool :=
  match s.key with
  | some k => k.setWidth 8 == c
  | none => false

/-- `KeyTake()`: the latch's value, which stays (R171). -/
def State.keyTake (s : State) : Option Nibble := s.key

/-! ### Clock and timer (45_fx.md) -/

/-- `Now()`: the next reading of the clock and the clock after it. A reading is the last one plus a supplied or a free
advance, so it is never earlier (R182; log entries 10 and 12). -/
def Clock.now (k : Clock) : Nat × Clock :=
  match k.supplied with
  | d :: ds => (k.last + d, { last := k.last + d, reads := k.reads + 1, supplied := ds })
  | [] =>
    (k.last + Config.clockAdvance k.reads,
      { last := k.last + Config.clockAdvance k.reads, reads := k.reads + 1, supplied := [] })

/-- The timer's value at the instant `t`: the initial magnitude less the whole 16 ms ticks since the start instant, not
below 0 (R181; log entry 15). -/
def timerValue (tInit : Byte) (tStart t : Nat) : Byte := BitVec.ofNat 8 (tInit.toNat - (t - tStart) / tickNs)

/-- `TimerSet(v)`: `T_START <- Now(); T_INIT <- v` (R180). -/
def State.timerSet (s : State) (b : Byte) : State :=
  { s with tStart := s.clock.now.1, tInit := b, clock := s.clock.now.2 }

/-- The value `TimerGet()` returns (R181). -/
def State.timerGet (s : State) : Byte := timerValue s.tInit s.tStart s.clock.now.1

/-- The state after `Now()` was read and nothing else: `TimerGet` writes no timer field (R181). -/
def State.readClock (s : State) : State := { s with clock := s.clock.now.2 }

/-! ### Random source (42_index_jump_random.md R145) -/

/-- `RandomByte()`: the next supplied or free byte and the source after it (log entries 11 and 12). -/
def RandomSource.draw (r : RandomSource) : Byte × RandomSource :=
  match r.supplied with
  | b :: bs => (b, { seed := r.seed, drawn := r.drawn + 1, supplied := bs })
  | [] => (Config.randomByte r.seed r.drawn, { seed := r.seed, drawn := r.drawn + 1, supplied := [] })

/-- The state after one draw. -/
def State.drawByte (s : State) : State := { s with rng := s.rng.draw.2 }

end Sys2Proof.Machine
end

