-- ==== Sys2Proof/Machine/Operands.lean ====
section
/-! DEFINITION. The operand forms (30_encoding.md R72): how a field of the word becomes a value. Register operands are
`State.getV` of Ops; a byte immediate is its own value. -/

namespace Sys2Proof.Machine

/-- `zext_16(nnn)`: a 12-bit address as a 16-bit one (R72). -/
def addrOperand (nnn : Addr) : Word := nnn.setWidth 16

/-- `zext_16(b)`: a byte added to a 16-bit register (42_index_jump_random.md R142, 45_fx.md R187). -/
def byteOperand (b : Byte) : Word := b.setWidth 16

/-- The hundreds digit of a byte (45_fx.md R189). -/
def hundreds (b : Byte) : Byte := BitVec.ofNat 8 (b.toNat / 100)

/-- The tens digit of a byte (45_fx.md R189). -/
def tens (b : Byte) : Byte := BitVec.ofNat 8 (b.toNat / 10 % 10)

/-- The ones digit of a byte (45_fx.md R189). -/
def ones (b : Byte) : Byte := BitVec.ofNat 8 (b.toNat % 10)

/-- The address of the font glyph for a byte: five times its value, not reduced to a nibble (45_fx.md R188). -/
def glyphAddr (b : Byte) : Word := BitVec.ofNat 16 (b.toNat * 5)

end Sys2Proof.Machine
end

