-- ==== Sys2Proof/Machine/Control.lean ====
section
/-! DEFINITION. Families 0–5: screen clear, jumps, call, return and skips (spec 40_control.md). Each meaning reads the
state's PC as `pc0`. -/

namespace Sys2Proof.Machine

/-- 00E0 CLS (R100). -/
def execCls (s : State) : Result := .next { s with fb := s.fb.clear }.advance

/-- 00EE RET (R101): StackUnderflow at `SP = 0` (R203, log entry 2); a slot the stack does not have stops the machine
(log entry 3). -/
def execRet (s : State) : Result :=
  if s.sp = 0#8 then .next (s.raise .stackUnderflow (encode .ret))
  else
    match s.top? with
    | some ra => .next (s.drop.jump ra)
    | none => .fault .stackSlotAbsent

/-- 0NNN SYS addr (R102): a jump that pushes nothing. -/
def execSysAddr (nnn : Addr) (s : State) : Result := .next (s.jump (addrOperand nnn))

/-- 1NNN JP addr (R103). -/
def execJpAddr (nnn : Addr) (s : State) : Result := .next (s.jump (addrOperand nnn))

/-- 2NNN CALL addr (R104): StackOverflow when `SP >= 15` before the push (R202, log entry 2). -/
def execCallAddr (nnn : Addr) (s : State) : Result :=
  if 15#8 ≤ s.sp then .next (s.raise .stackOverflow (encode (.callAddr nnn)))
  else .next ((s.push (s.pc + 2#16)).jump (addrOperand nnn))

/-- 3XKK SE Vx, byte (R105). -/
def execSeVxByte (x : Nibble) (kk : Byte) (s : State) : Result := .next (s.skipIf (s.getV x == kk))

/-- 4XKK SNE Vx, byte (R106). -/
def execSneVxByte (x : Nibble) (kk : Byte) (s : State) : Result := .next (s.skipIf (s.getV x != kk))

/-- 5XY0 SE Vx, Vy (R107). -/
def execSeVxVy (x y : Nibble) (s : State) : Result := .next (s.skipIf (s.getV x == s.getV y))

end Sys2Proof.Machine
end

