-- ==== Sys2Proof/Machine/Draw.lean ====
section
/-! DEFINITION. Family D: the XOR-blit sprite engine's one instruction (spec 43_draw.md). -/

namespace Sys2Proof.Machine

/-- DXYN DRW Vx, Vy, nibble (R152): the coordinates and `I` are latched, `n` rows are blitted, and VF is written last,
even when `n = 0`. -/
def execDrw (x y n : Nibble) (s : State) : Result :=
  let drawn := s.drawRows s.i (s.getV x) (s.getV y) n.toNat
  .next ({ s with fb := drawn.1 }.setV vf (flagByte drawn.2)).advance

end Sys2Proof.Machine
end

