-- ==== Sys2Proof/Machine/IndexJumpRandom.lean ====
section
/-! DEFINITION. Families 9–C: register skip, index load, offset jump and random (spec 42_index_jump_random.md). -/

namespace Sys2Proof.Machine

/-- 9XY0 SNE Vx, Vy (R140). -/
def execSneVxVy (x y : Nibble) (s : State) : Result := .next (s.skipIf (s.getV x != s.getV y))

/-- ANNN LD I, addr (R141). -/
def execLdIAddr (nnn : Addr) (s : State) : Result := .next (s.setI (addrOperand nnn)).advance

/-- BNNN JP V0, addr (R142): the offset register is always V0, and the sum is not masked. -/
def execJpV0Addr (nnn : Addr) (s : State) : Result :=
  .next (s.jump (addrOperand nnn + byteOperand (s.getV 0x0#4)))

/-- CXKK RND Vx, byte (R143): exactly one draw, whatever `kk` is. -/
def execRndVxByte (x : Nibble) (kk : Byte) (s : State) : Result :=
  .next (s.drawByte.setV x (s.rng.draw.1 &&& kk)).advance

end Sys2Proof.Machine
end

