-- ==== Sys2Proof/Machine/Keys.lean ====
section
/-! DEFINITION. Family E: the key skips (spec 44_keys.md). -/

namespace Sys2Proof.Machine

/-- EX9E SKP Vx (R173). -/
def execSkpVx (x : Nibble) (s : State) : Result := .next (s.skipIf (s.keyIsPressed (s.getV x)))

/-- EXA1 SKNP Vx (R174). -/
def execSknpVx (x : Nibble) (s : State) : Result := .next (s.skipIf (!s.keyIsPressed (s.getV x)))

end Sys2Proof.Machine
end

