-- ==== Sys2Proof/Machine/Misc.lean ====
section
/-! DEFINITION. Family F: timer, key wait, index arithmetic and memory transfers (spec 45_fx.md). -/

namespace Sys2Proof.Machine

/-- FX07 LD Vx, DT (R183): the timer is read, not written. -/
def execLdVxDt (x : Nibble) (s : State) : Result := .next (s.readClock.setV x s.timerGet).advance

/-- FX0A LD Vx, K (R184): with no key latched only PC advances, or nothing changes under `fx0a_holds_pc` (log entry
13). -/
def execLdVxK (x : Nibble) (s : State) : Result :=
  match s.keyTake with
  | some c => .next (s.setV x (c.setWidth 8)).advance
  | none => .next (if fx0aHoldsPc then s else s.advance)

/-- FX15 LD DT, Vx (R185). -/
def execLdDtVx (x : Nibble) (s : State) : Result := .next (s.timerSet (s.getV x)).advance

/-- FX18 LD ST, Vx (R186): a no-op that advances PC. -/
def execLdStVx (s : State) : Result := .next s.advance

/-- FX1E ADD I, Vx (R187): no overflow flag. -/
def execAddIVx (x : Nibble) (s : State) : Result := .next (s.setI (s.i + byteOperand (s.getV x))).advance

/-- FX29 LD F, Vx (R188). -/
def execLdFVx (x : Nibble) (s : State) : Result := .next (s.setI (glyphAddr (s.getV x))).advance

/-- FX33 LD B, Vx (R189): hundreds, tens and ones at `I`, `I + 1`, `I + 2`; `I` is unchanged. -/
def execLdBVx (x : Nibble) (s : State) : Result :=
  let vx0 := s.getV x
  .next (((s.memWrite s.i (hundreds vx0)).memWrite (s.i + 1#16) (tens vx0)).memWrite (s.i + 2#16) (ones vx0)).advance

/-- FX55 LD [I], Vx (R190): `V0`..`V[x]` are stored, then `I` advances by `x + 1`. -/
def execLdMemVx (x : Nibble) (s : State) : Result :=
  .next ((s.storeRegs s.i (x.toNat + 1)).setI (s.i + BitVec.ofNat 16 (x.toNat + 1))).advance

/-- FX65 LD Vx, [I] (R191): `V0`..`V[x]` are loaded; `I` is unchanged. -/
def execLdVxMem (x : Nibble) (s : State) : Result := .next (s.loadRegs s.i (x.toNat + 1)).advance

end Sys2Proof.Machine
end

