-- ==== Sys2Proof/Machine/Cycle.lean ====
section
/-! DEFINITION. The fetch-decode-execute cycle (30_encoding.md R80), which `step` calls. -/

namespace Sys2Proof.Machine

/-- One cycle of a running block: fetch at PC, decode, and execute or raise DecodeFailure before any effect (R80,
60_exceptions.md R201). -/
def fetchDecodeExecute (s : State) : Result :=
  match decodeWord s.fetchWord with
  | .ok ins => exec ins s
  | .error _ => .next (s.raise .decodeFailure s.fetchWord)

/-- `Step()`: only a running block steps; a faulted one takes no step (R80, 60_exceptions.md R206; log entry 1). -/
def cycle (s : State) : Result :=
  match s.run with
  | .running => fetchDecodeExecute s
  | .faulted _ _ _ => .fault .stepWhileFaulted

end Sys2Proof.Machine
end

