-- ==== Sys2Proof/Machine/HostOps.lean ====
section
/-! DEFINITION. The host interface (70_reset_and_hazards.md R243): what the outside world does to the block, each
operation atomic and between steps. -/

namespace Sys2Proof.Machine

/-- The launch parameters of a run, each with the spec's default (92_eei_decisions.md D3, D5, D6, D8, D15, D24). -/
structure Launch where
  /-- `reset_regs` (10_state.md R40). -/
  regs : Vector Byte 16 := Vector.replicate 16 0x00#8
  /-- `reset_i` (R41). -/
  i : Word := 0x0000#16
  /-- `reset_mem` (R45): bytes outside the font, by address; every other byte is 0. -/
  mem : List (Word × Byte) := []
  /-- `reset_timer` (R48). -/
  timer : Byte := 0x00#8
  /-- `FONT` (20_memory.md R62). -/
  font : List Byte := fontTable
  /-- The seed of the random source (R49). -/
  seed : Nat := 0
  /-- A fixed sequence of draws, where a test supplies one (42_index_jump_random.md R145). -/
  draws : List Byte := []
  /-- The time from reading to reading of the clock, where a run supplies it (45_fx.md R182). -/
  advances : List Nat := []
  deriving DecidableEq, Repr

/-- The bytes of `reset_mem` written on a fresh memory, those of the font area left out. -/
def State.writeResetMem (s : State) : List (Word × Byte) → State
  | [] => s
  | (a, b) :: rest => (if maskAddr a < 80 then s else s.memWrite a b).writeResetMem rest

/-- Construction of the machine (R230): `k` is the clock and `t` its reading `Now()` at reset, `drawn` how many bytes
the random source has yielded before (log entry 25). -/
def State.construct (L : Launch) (k : Clock) (t drawn : Nat) : State :=
  ({ State.reset with
      v := L.regs, i := L.i, tStart := t, tInit := L.timer, clock := k,
      rng := { seed := L.seed, drawn := drawn, supplied := L.draws } }.writeResetMem L.mem).memWriteAll 0x0000#16 (L.font.take 80)

/-- `Reset`: reconstruction between steps, from any run state (R230, R236). The clock goes on: `T_START` is a reading
taken now. -/
def State.relaunch (s : State) (L : Launch) : State :=
  let reading := { s.clock with supplied := L.advances }.now
  State.construct L reading.2 reading.1 s.rng.drawn

/-- `LoadRom(bytes)`: the bytes are written from 0x200 on, where there are 1 to 3584 of them; other images are rejected
and change nothing (R233, U15; log entry 23). -/
def State.loadRom (s : State) (rom : List Byte) : Result :=
  if 1 ≤ rom.length ∧ rom.length ≤ romMax then .next (s.memWriteAll (BitVec.ofNat 16 programBase) rom)
  else .refused .romRejected

/-- `SetKey(k)`: the latch is replaced; a code outside 0–15 is refused (44_keys.md R172, U14; log entry 23). -/
def State.setKey (s : State) (k : Option Nat) : Result :=
  match k with
  | none => .next { s with key := none }
  | some c => if c ≤ 15 then .next { s with key := some (BitVec.ofNat 4 c) } else .refused .keyCodeInvalid

/-- The operations of the host (R243). -/
inductive HostOp where
  | reset (L : Launch)
  | loadRom (bytes : List Byte)
  | step
  | setKey (k : Option Nat)
  | snapshot
  | status
  deriving DecidableEq, Repr

/-- What the host gets back (R243). A rejected operation is a refusal. -/
inductive Reply where
  | done
  | pixels (bytes : List Byte)
  | status (run : RunState)
  deriving DecidableEq, Repr

/-- A result with the reply `done`. -/
def withDone : Result → Host.Outcome (State × Reply) Fault Refusal
  | .next t => .next (t, .done)
  | .fault r => .fault r
  | .refused r => .refused r

/-- One operation of the host on the block (R243). `Snapshot` and `Status` change nothing (43_draw.md R153, R244). -/
def State.perform (s : State) : HostOp → Host.Outcome (State × Reply) Fault Refusal
  | .reset L => .next (s.relaunch L, .done)
  | .loadRom bytes => withDone (s.loadRom bytes)
  | .step => withDone (step s)
  | .setKey k => withDone (s.setKey k)
  | .snapshot => .next (s, .pixels s.fb.snapshot)
  | .status => .next (s, .status s.run)

end Sys2Proof.Machine
end

