-- ==== Sys2Proof/Safety.lean ====
section
/-! DEFINITION. The terms that claims are stated in: what two states share, the invariants of the block, and what a
safe run is. -/

namespace Sys2Proof.Machine

/-- The parts of the state, each a piece that some rule of the spec says an instruction changes or keeps. -/
inductive Part where
  | reg (x : Nibble)
  | index
  | pc
  | stack
  | sp
  | rng
  | run
  | mem
  | fb
  | key
  | timer
  | clock
  deriving DecidableEq, Repr

/-- `t` agrees with `s` on every part that `ps` does not list: each register by itself, memory byte by byte at every
address, the framebuffer cell by cell. -/
structure SameBut (ps : List Part) (s t : State) : Prop where
  reg : ∀ j : Nibble, Part.reg j ∉ ps → t.getV j = s.getV j
  index : Part.index ∉ ps → t.i = s.i
  pc : Part.pc ∉ ps → t.pc = s.pc
  stack : Part.stack ∉ ps → t.stack = s.stack
  sp : Part.sp ∉ ps → t.sp = s.sp
  rng : Part.rng ∉ ps → t.rng = s.rng
  run : Part.run ∉ ps → t.run = s.run
  mem : Part.mem ∉ ps → ∀ a : Word, t.memRead a = s.memRead a
  fb : Part.fb ∉ ps → ∀ (r : BitVec 5) (c : BitVec 6), t.fb.cell r c = s.fb.cell r c
  key : Part.key ∉ ps → t.key = s.key
  timer : Part.timer ∉ ps → t.tStart = s.tStart ∧ t.tInit = s.tInit
  clock : Part.clock ∉ ps → t.clock = s.clock

/-- The parts `V0`..`V[n-1]`. -/
def firstRegs (n : Nat) : List Part := (List.range n).map (fun k => Part.reg (BitVec.ofNat 4 k))

/-- Which general registers an instruction may write (10_state.md R22, R28): `V[x]`, `V0`..`V[x]` for FX65, and VF as
the flag. No other instruction writes one. -/
def mayWriteReg : Instr → Nibble → Bool
  | .ldVxByte x _, j | .addVxByte x _, j | .ldVxVy x _, j | .orVxVy x _, j | .andVxVy x _, j | .xorVxVy x _, j
  | .rndVxByte x _, j | .ldVxDt x, j | .ldVxK x, j => j == x
  | .addVxVy x _, j | .subVxVy x _, j | .shrVx x, j | .subnVxVy x _, j | .shlVx x, j => j == x || j == vf
  | .drw _ _ _, j => j == vf
  | .ldVxMem x, j => decide (j.toNat ≤ x.toNat)
  | _, _ => false

/-- The instructions that skip (40_control.md R108). -/
def isSkip : Instr → Bool
  | .seVxByte _ _ | .sneVxByte _ _ | .seVxVy _ _ | .sneVxVy _ _ | .skpVx _ | .sknpVx _ => true
  | _ => false

/-- Where an instruction that sets PC explicitly goes (40_control.md R108): the address on top of the stack for a
return, `nnn`, or `nnn + V0`. No other instruction sets PC explicitly. -/
def jumpTarget (s : State) : Instr → Option Word
  | .ret => s.top?
  | .sysAddr nnn | .jpAddr nnn | .callAddr nnn => some (nnn.setWidth 16)
  | .jpV0Addr nnn => some (nnn.setWidth 16 + (s.getV 0x0#4).setWidth 16)
  | _ => none

/-- The fault record is true of the state it stands in (60_exceptions.md R200, R205): PC is still at the faulting
instruction, memory holds the recorded word there, and the cause's condition holds. -/
def FaultRecordTrue (s : State) : Prop :=
  match s.run with
  | .running => True
  | .faulted cause pc w =>
    s.pc = pc ∧ s.fetchWord = w ∧
    match cause with
    | .decodeFailure => ∃ e, decodeWord w = .error e
    | .stackOverflow => s.sp = 15#8 ∧ fieldOp w = 0x2#4
    | .stackUnderflow => s.sp = 0#8 ∧ w = 0x00EE#16

/-- What every operation of the host, a step among them, keeps: memory is in its canonical form, `SP` names a slot
(10_state.md R30), and the timer did not start after the clock's latest reading (45_fx.md R182). -/
structure StateOk (s : State) : Prop where
  mem : Memory.wf s.mem = true
  sp : s.sp ≤ 15#8
  time : s.tStart ≤ s.clock.last

/-- The invariant of a run of steps: `StateOk`, and a fault record, where there is one, is true. -/
structure Inv (s : State) : Prop where
  ok : StateOk s
  record : FaultRecordTrue s

/-- Whether a sprite of `n` rows at `i0`, drawn at (`vx0`, `vy0`), has a 1 at row `r`, column `c` of the screen: the
closed form of DXYN's loops (43_draw.md R151, R152). Row `r` is row `(r - vy0) mod 32` of the sprite, column `c` is
its pixel `(c - vx0) mod 64`, most significant bit first. -/
def spritePixel (s : State) (i0 : Word) (vx0 vy0 : Byte) (n : Nat) (r : BitVec 5) (c : BitVec 6) : Bool :=
  let dr := (r - vy0.setWidth 5).toNat
  let dc := (c - vx0.setWidth 6).toNat
  decide (dr < n) && decide (dc < 8) && (s.memRead (i0 + BitVec.ofNat 16 dr)).getLsbD (7 - dc)

/-- The block is still running: a faulted state is never a successful end (60_exceptions.md R206). -/
def State.isRunning (s : State) : Bool :=
  match s.run with
  | .running => true
  | .faulted _ _ _ => false

/-- Every one of the first `k` steps from `s` completes its instruction: no fault is entered and no step stops. -/
def SafeRun : Nat → State → Prop
  | 0, s => s.isRunning = true
  | k + 1, s => s.isRunning = true ∧ ∃ t, step s = .next t ∧ SafeRun k t

/-- `s` and `t` look the same to every program (10_state.md R23, R26): all the state is equal, but for bits 15..12 of
PC, of `I`, of each stack slot (a slot is only popped into PC) and of a fault record's address. -/
structure SameLow12 (s t : State) : Prop where
  v : t.v = s.v
  i : t.i &&& 0x0FFF#16 = s.i &&& 0x0FFF#16
  pc : t.pc &&& 0x0FFF#16 = s.pc &&& 0x0FFF#16
  stack : ∀ k : Fin 16, t.stack[k] &&& 0x0FFF#16 = s.stack[k] &&& 0x0FFF#16
  sp : t.sp = s.sp
  rng : t.rng = s.rng
  run : match s.run, t.run with
    | .running, .running => True
    | .faulted c p w, .faulted c' p' w' => c' = c ∧ p' &&& 0x0FFF#16 = p &&& 0x0FFF#16 ∧ w' = w
    | _, _ => False
  mem : t.mem = s.mem
  fb : t.fb = s.fb
  key : t.key = s.key
  timer : t.tStart = s.tStart ∧ t.tInit = s.tInit
  clock : t.clock = s.clock

/-- `s` and `t` agree on everything but the stack slots that no pop can reach before a push writes them: slot 0 and the
slots above `SP` (10_state.md R31). -/
structure SameLiveStack (s t : State) : Prop where
  rest : { t with stack := s.stack } = s
  live : ∀ k : Fin 16, 1 ≤ k.val → k.val ≤ s.sp.toNat → t.stack[k] = s.stack[k]

end Sys2Proof.Machine
end

