-- ==== Sys2Proof/Certificates/Slice0/Obligations.lean ====
section
/-! DEFINITION. The statements for the provers, each from the spec's rules. Every docstring names the rule; a statement
that rests on a choice of the spec or of the model says so and names it. -/

open Sys2Proof Sys2Proof.Machine

/-! ### Encoding (spec 30_encoding.md) -/

/-- R70, R71, R73: decoding the word, or the two bytes, of a well-formed instruction gives it back, with every operand
at every value. -/
def Obligations.DecodeUndoesEncode : Prop :=
  (∀ i : Instr, i.WellFormed → decodeWord (encode i) = .ok i) ∧
  (∀ (i : Instr) (rest : List Byte), i.WellFormed → decodeBytes (encodeBytes i ++ rest) = .ok (i, rest))

/-- 30_encoding.md R73 (that families 5 and 9 need a low nibble of 0 is decision D12, log entry 17): a word decodes to a
row when `w AND mask == match`, and to SYS only when neither of the two rows above it matches; the operands are the
word's fields (the word less the ignored bits of R75 is the instruction's own word). -/
def Obligations.DecodeFollowsOpcodeTable : Prop :=
  (∀ (w : Word) (i : Instr), decodeWord w = .ok i ↔ i.WellFormed ∧ w &&& ~~~ i.ignoredBits = encode i) ∧
  (∀ (w : Word) (i : Instr), decodeWord w = .ok i → w &&& i.rowMask = i.rowMatch) ∧
  (∀ (w : Word) (i : Instr), w &&& i.rowMask = i.rowMatch →
    (i.rowMask = 0xFFFF#16 ∨ (w ≠ 0x00E0#16 ∧ w ≠ 0x00EE#16)) →
    ∃ j, decodeWord w = .ok j ∧ j.rowMask = i.rowMask ∧ j.rowMatch = i.rowMatch)

/-- R74 (a list the spec derives, with decision D12 for families 5 and 9): the illegal words are exactly the five
groups. -/
def Obligations.IllegalWordsAreTheFiveGroups : Prop :=
  ∀ w : Word, (∃ e, decodeWord w = .error e) ↔
    (fieldOp w = 0x5#4 ∧ fieldN w ≠ 0x0#4) ∨
    (fieldOp w = 0x8#4 ∧ fieldN w ∈ [0x8#4, 0x9#4, 0xA#4, 0xB#4, 0xC#4, 0xD#4, 0xF#4]) ∨
    (fieldOp w = 0x9#4 ∧ fieldN w ≠ 0x0#4) ∨
    (fieldOp w = 0xE#4 ∧ fieldKK w ∉ [0x9E#8, 0xA1#8]) ∨
    (fieldOp w = 0xF#4 ∧
      fieldKK w ∉ [0x07#8, 0x0A#8, 0x15#8, 0x18#8, 0x1E#8, 0x29#8, 0x33#8, 0x55#8, 0x65#8])

/-- R73, a word of each of the sixteen families (00_scope.md R18: a family is the top nibble), written out from the
table's patterns. -/
def Obligations.WrittenOutWordsDecode : Prop :=
  decodeWord 0b0000000011100000#16 = .ok .cls ∧
  decodeWord 0b0001101010111100#16 = .ok (.jpAddr 0xABC#12) ∧
  decodeWord 0b0010001100000000#16 = .ok (.callAddr 0x300#12) ∧
  decodeWord 0b0011001101000010#16 = .ok (.seVxByte 0x3#4 0x42#8) ∧
  decodeWord 0b0100001101000010#16 = .ok (.sneVxByte 0x3#4 0x42#8) ∧
  decodeWord 0b0101000100100000#16 = .ok (.seVxVy 0x1#4 0x2#4) ∧
  decodeWord 0b0110101001011100#16 = .ok (.ldVxByte 0xA#4 0x5C#8) ∧
  decodeWord 0b0111000000000011#16 = .ok (.addVxByte 0x0#4 0x03#8) ∧
  decodeWord 0b1000000100100101#16 = .ok (.subVxVy 0x1#4 0x2#4) ∧
  decodeWord 0b1001000100100000#16 = .ok (.sneVxVy 0x1#4 0x2#4) ∧
  decodeWord 0b1010001011110000#16 = .ok (.ldIAddr 0x2F0#12) ∧
  decodeWord 0b1011000100100011#16 = .ok (.jpV0Addr 0x123#12) ∧
  decodeWord 0b1100001100001111#16 = .ok (.rndVxByte 0x3#4 0x0F#8) ∧
  decodeWord 0b1101000100100101#16 = .ok (.drw 0x1#4 0x2#4 0x5#4) ∧
  decodeWord 0b1110001010011110#16 = .ok (.skpVx 0x2#4) ∧
  decodeWord 0b1111010100110011#16 = .ok (.ldBVx 0x5#4)

/-! ### The cycle -/

/-- R55: the byte at PC is bits 15..8 of the fetched word, and the byte at PC + 1, modulo 2^16, is bits 7..0. -/
def Obligations.FetchIsBigEndian : Prop :=
  ∀ s : State, hiByte s.fetchWord = s.memRead s.pc ∧ loByte s.fetchWord = s.memRead (s.pc + 1#16) ∧
    s.fetchWord = (s.memRead s.pc).setWidth 16 <<< 8 ||| (s.memRead (s.pc + 1#16)).setWidth 16

/-- R80: on a running block whose word at PC decodes to an instruction, a step is exactly that instruction's
execution; nothing is added around it. -/
def Obligations.StepRunsDecodedInstruction : Prop :=
  ∀ (s : State) (i : Instr), s.run = .running → decodeWord s.fetchWord = .ok i → step s = exec i s

/-- R201, R205, under decisions D16 and D17 (log entry 1): on a running block whose word at PC is illegal, a step
records DecodeFailure with PC and the word, and changes nothing else. -/
def Obligations.IllegalWordRecordsDecodeFailure : Prop :=
  ∀ (s : State) (e : DecodeReject), s.run = .running → decodeWord s.fetchWord = .error e →
    ∃ t, step s = .next t ∧ t.run = .faulted .decodeFailure s.pc s.fetchWord ∧ SameBut [.run] s t

/-- R206, U19, under decision D16 (log entry 1): a faulted block takes no step. -/
def Obligations.FaultedBlockTakesNoStep : Prop :=
  ∀ (s : State) (c : FaultCause) (pc w : Word), s.run = .faulted c pc w → step s = .fault .stepWhileFaulted

/-- R82, R205, R208, under decisions D1, D16 and D17 (log entries 1 and 2): a step that enters a fault changes nothing
but `run`; the record holds the address and the word of the instruction; and the cause is the one whose condition
holds. -/
def Obligations.FaultingStepChangesOnlyRun : Prop :=
  ∀ s t : State, step s = .next t → t.run ≠ .running →
    SameBut [.run] s t ∧ ∃ c, t.run = .faulted c s.pc s.fetchWord ∧
      (c = .decodeFailure ↔ ∃ e, decodeWord s.fetchWord = .error e) ∧
      (c = .stackOverflow ↔ 15#8 ≤ s.sp ∧ ∃ nnn, decodeWord s.fetchWord = .ok (.callAddr nnn)) ∧
      (c = .stackUnderflow ↔ s.sp = 0#8 ∧ decodeWord s.fetchWord = .ok .ret)

/-! ### Invariants and whole-machine rules -/

/-- Every step keeps the invariant: memory's canonical form, `SP` at most 15 (R30), the timer's start not after the
clock (R182), and a fault record that is true of the state (R205). The form of memory is the model's own. -/
def Obligations.StepKeepsInvariant : Prop :=
  ∀ s t : State, Inv s → step s = .next t → Inv t

/-- The reset state meets the invariant. -/
def Obligations.ResetMeetsInvariant : Prop := Inv State.reset

/-- Every operation of the host (R243) that is accepted keeps what it can: memory's form, `SP`, the timer's start. -/
def Obligations.HostOperationsKeepStateOk : Prop :=
  ∀ (s t : State) (op : HostOp) (r : Reply), StateOk s → s.perform op = .next (t, r) → StateOk t

/-- R23, R26 (derived there, under decision D10): no program can observe bits 15..12 of PC or `I`. Two states that look
the same take the same kind of step, to states that look the same. -/
def Obligations.HighAddressBitsUnobservable : Prop :=
  ∀ s s' : State, SameLow12 s s' →
    (∀ t, step s = .next t → ∃ t', step s' = .next t' ∧ SameLow12 t t') ∧
    (∀ f, step s = .fault f → step s' = .fault f)

/-- R31 (derived there): no program can observe slot 0 of the stack or a slot that no push has filled. -/
def Obligations.DeadStackSlotsUnobservable : Prop :=
  ∀ s s' : State, SameLiveStack s s' →
    (∀ t, step s = .next t → ∃ t', step s' = .next t' ∧ SameLiveStack t t') ∧
    (∀ f, step s = .fault f → step s' = .fault f)

/-- R30: no push ever writes slot 0, and a step moves `SP` by at most one. -/
def Obligations.SlotZeroNeverWritten : Prop :=
  ∀ s t : State, step s = .next t →
    t.stack[0] = s.stack[0] ∧ (t.sp = s.sp ∨ t.sp = s.sp + 1#8 ∨ (s.sp ≠ 0#8 ∧ t.sp = s.sp - 1#8))

/-- R22, R28 (derived there): only the listed instructions write a general register, and only the ones they name. -/
def Obligations.OnlyListedInstructionsWriteRegisters : Prop :=
  ∀ (i : Instr) (s t : State) (j : Nibble), exec i s = .next t → mayWriteReg i j = false → t.getV j = s.getV j

/-- R33: the framebuffer is 64 columns by 32 rows, row-major in the host's snapshot, zeroed at reset, and only 00E0 and
DXYN change it. -/
def Obligations.OnlyClsAndDrwChangeFramebuffer : Prop :=
  (∀ (r : BitVec 5) (c : BitVec 6), State.reset.fb.cell r c = false) ∧
  (∀ (fb : FrameBuffer), fb.snapshot.length = 2048 ∧
    ∀ (r : BitVec 5) (c : BitVec 6),
      fb.snapshot[r.toNat * 64 + c.toNat]? = some (if fb.cell r c then 0x01#8 else 0x00#8)) ∧
  (∀ (i : Instr) (s t : State), exec i s = .next t → i ≠ .cls → (∀ x y n, i ≠ .drw x y n) → t.fb = s.fb)

/-- R29: the stack is apart from memory; only 2NNN writes it, and only 00EE reads it (any other instruction does the
same whatever the slots hold). -/
def Obligations.OnlyCallWritesAndOnlyRetReadsStack : Prop :=
  (∀ (s : State) (a : Word) (b : Byte) (q : Vector Word 16),
    (s.memWrite a b).stack = s.stack ∧ State.memRead { s with stack := q } a = s.memRead a) ∧
  (∀ (i : Instr) (s t : State), exec i s = .next t → (∀ nnn, i ≠ .callAddr nnn) → t.stack = s.stack) ∧
  (∀ (i : Instr) (s t : State) (q : Vector Word 16), i ≠ .ret → exec i s = .next t →
    ∃ t', exec i { s with stack := q } = .next t' ∧ { t' with stack := t.stack } = t ∧
      ∀ k : Fin 16, t'.stack[k] = q[k] ∨ (t'.stack[k] = t.stack[k] ∧ ∃ nnn, i = .callAddr nnn))

/-- R34, R35, R53, R23, R145, R182: the key latch is only read; only FX15 writes the timer; only FX33 and FX55 write
memory; only ANNN, FX1E, FX29 and FX55 write `I`; only CXKK draws; only FX07 and FX15 read the clock. -/
def Obligations.EachPartHasItsWriters : Prop :=
  ∀ (i : Instr) (s t : State), exec i s = .next t →
    t.key = s.key ∧
    ((∀ x, i ≠ .ldDtVx x) → t.tStart = s.tStart ∧ t.tInit = s.tInit) ∧
    ((∀ x, i ≠ .ldBVx x) → (∀ x, i ≠ .ldMemVx x) → ∀ a, t.memRead a = s.memRead a) ∧
    ((∀ a, i ≠ .ldIAddr a) → (∀ x, i ≠ .addIVx x) → (∀ x, i ≠ .ldFVx x) → (∀ x, i ≠ .ldMemVx x) → t.i = s.i) ∧
    ((∀ x kk, i ≠ .rndVxByte x kk) → t.rng = s.rng) ∧
    ((∀ x, i ≠ .ldVxDt x) → (∀ x, i ≠ .ldDtVx x) → t.clock = s.clock)

/-- R25: an instruction that completes sets PC explicitly, or skips (PC + 4) or advances (PC + 2); one that raises a
fault leaves PC unchanged. -/
def Obligations.PcMovesInOneOfThreeWays : Prop :=
  ∀ (i : Instr) (s t : State), s.run = .running → exec i s = .next t →
    (t.run ≠ .running → t.pc = s.pc) ∧
    (t.run = .running →
      match jumpTarget s i with
      | some a => t.pc = a
      | none => t.pc = s.pc + 2#16 ∨ (isSkip i = true ∧ t.pc = s.pc + 4#16))

/-! ### Memory (spec 20_memory.md) -/

/-- R50: every access masks its address with 0xFFF, and no access fails. -/
def Obligations.EveryAddressIsMasked : Prop :=
  ∀ (s : State) (a b : Word) (d : Byte), a &&& 0x0FFF#16 = b &&& 0x0FFF#16 →
    s.memRead a = s.memRead b ∧ s.memWrite a d = s.memWrite b d

/-- R51, R52, R69: a read gives the byte at the masked address, a write puts the byte there and changes no other byte
and no other part; `write(0x1200, v)` and `read(0x200)` see the same byte. -/
def Obligations.ReadAfterWriteAtMaskedAddress : Prop :=
  (∀ (s : State) (a b : Word) (d : Byte),
    (a &&& 0x0FFF#16 = b &&& 0x0FFF#16 → (s.memWrite a d).memRead b = d) ∧
    (a &&& 0x0FFF#16 ≠ b &&& 0x0FFF#16 → (s.memWrite a d).memRead b = s.memRead b) ∧
    SameBut [.mem] s (s.memWrite a d)) ∧
  (∀ (s : State) (d : Byte), (s.memWrite 0x1200#16 d).memRead 0x0200#16 = d)

/-- A multi-byte run of accesses wraps from 0xFFF to 0x000, the fetch among them (R58, derived there): where PC masks
to 0xFFF, the low byte of the word is the byte at 0x000. -/
def Obligations.FetchWrapsAtTopOfMemory : Prop :=
  ∀ s : State, s.pc &&& 0x0FFF#16 = 0x0FFF#16 →
    s.fetchWord = s.memRead 0x0FFF#16 ++ s.memRead 0x0000#16

/-! ### Families 0–5 (spec 40_control.md) -/

/-- R100, R150: 00E0 sets every cell to 0, advances PC by 2 and changes nothing else. -/
def Obligations.ClsClearsEveryCell : Prop :=
  decodeWord 0x00E0#16 = .ok .cls ∧
  ∀ s : State, ∃ t, exec .cls s = .next t ∧ (∀ r c, t.fb.cell r c = false) ∧ t.pc = s.pc + 2#16 ∧
    SameBut [.fb, .pc] s t

/-- 00EE with `SP` in 1..15 (40_control.md RET): PC is the popped slot, `SP` falls by one, nothing else changes. -/
def Obligations.RetPopsReturnAddress : Prop :=
  decodeWord 0x00EE#16 = .ok .ret ∧
  ∀ (s : State) (k : Fin 16), s.sp.toNat = k.val → 1 ≤ k.val →
    ∃ t, exec .ret s = .next t ∧ t.pc = s.stack[k] ∧ t.sp.toNat = k.val - 1 ∧ SameBut [.pc, .sp] s t

/-- 00EE outside 1..15: at `SP = 0` it records StackUnderflow and changes nothing else (decisions D1, D16, D17; log
entries 1 and 2); above 15, where the stack has no slot and no run comes, the machine stops by name (the model's
choice, log entry 3). -/
def Obligations.RetWithoutSlotFaults : Prop :=
  ∀ s : State,
    (s.sp = 0#8 → ∃ t, exec .ret s = .next t ∧ t.run = .faulted .stackUnderflow s.pc 0x00EE#16 ∧ SameBut [.run] s t) ∧
    (16 ≤ s.sp.toNat → exec .ret s = .fault .stackSlotAbsent)

/-- 0NNN (40_control.md SYS): other than 00E0 and 00EE it is a jump to `nnn` that pushes nothing; 0x0000 jumps to
0x000. -/
def Obligations.SysJumpsAndPushesNothing : Prop :=
  (∀ w : Word, fieldOp w = 0x0#4 → w ≠ 0x00E0#16 → w ≠ 0x00EE#16 → decodeWord w = .ok (.sysAddr (fieldNNN w))) ∧
  ∀ (nnn : Addr) (s : State), ∃ t, exec (.sysAddr nnn) s = .next t ∧ t.pc.toNat = nnn.toNat ∧ SameBut [.pc] s t

/-- R103: 1NNN is a jump to `nnn`; a jump to its own address changes no state. -/
def Obligations.JpJumps : Prop :=
  (∀ w : Word, fieldOp w = 0x1#4 → decodeWord w = .ok (.jpAddr (fieldNNN w))) ∧
  (∀ (nnn : Addr) (s : State), ∃ t, exec (.jpAddr nnn) s = .next t ∧ t.pc.toNat = nnn.toNat ∧ SameBut [.pc] s t) ∧
  (∀ (nnn : Addr) (s : State), s.pc.toNat = nnn.toNat → exec (.jpAddr nnn) s = .next s)

/-- 2NNN with `SP` below 15 (40_control.md CALL): `SP` rises by one, the slot it then names holds `pc0 + 2`, the other
slots are kept, PC is `nnn`. PC arithmetic is modulo 2^16 (decision D10). -/
def Obligations.CallPushesAndJumps : Prop :=
  (∀ w : Word, fieldOp w = 0x2#4 → decodeWord w = .ok (.callAddr (fieldNNN w))) ∧
  ∀ (nnn : Addr) (s : State), s.sp.toNat < 15 →
    ∃ t, exec (.callAddr nnn) s = .next t ∧ t.pc.toNat = nnn.toNat ∧ t.sp.toNat = s.sp.toNat + 1 ∧
      (∀ k : Fin 16, t.stack[k] = if k.val = s.sp.toNat + 1 then s.pc + 2#16 else s.stack[k]) ∧
      SameBut [.pc, .sp, .stack] s t

/-- 2NNN with `SP` at 15 or above records StackOverflow with its own word and changes nothing else (decisions D1, D16,
D17; log entries 1, 2 and 22). -/
def Obligations.CallOnFullStackFaults : Prop :=
  ∀ (nnn : Addr) (s : State), 15 ≤ s.sp.toNat →
    ∃ t, exec (.callAddr nnn) s = .next t ∧ t.run = .faulted .stackOverflow s.pc (0x2#4 ++ nnn) ∧ SameBut [.run] s t

/-- A return undoes a call (40_control.md CALL and RET): from any later state with the stack and `SP` that the call
left, it goes to the instruction after the call, with `SP` as before the call. -/
def Obligations.RetUndoesCall : Prop :=
  ∀ (nnn : Addr) (s t u : State), s.sp.toNat < 15 → exec (.callAddr nnn) s = .next t → u.stack = t.stack →
    u.sp = t.sp → ∃ r, exec .ret u = .next r ∧ r.pc = s.pc + 2#16 ∧ r.sp = s.sp ∧ SameBut [.pc, .sp] u r

/-- R105, R106: 3XKK skips when `V[x]` equals `kk`, 4XKK when it does not; both change nothing but PC. -/
def Obligations.ImmediateSkips : Prop :=
  (∀ w : Word, fieldOp w = 0x3#4 → decodeWord w = .ok (.seVxByte (fieldX w) (fieldKK w))) ∧
  (∀ w : Word, fieldOp w = 0x4#4 → decodeWord w = .ok (.sneVxByte (fieldX w) (fieldKK w))) ∧
  ∀ (x : Nibble) (kk : Byte) (s : State),
    (∃ t, exec (.seVxByte x kk) s = .next t ∧ t.pc = (if s.getV x = kk then s.pc + 4#16 else s.pc + 2#16) ∧
      SameBut [.pc] s t) ∧
    (∃ t, exec (.sneVxByte x kk) s = .next t ∧ t.pc = (if s.getV x = kk then s.pc + 2#16 else s.pc + 4#16) ∧
      SameBut [.pc] s t)

/-- 5XY0 (40_control.md R107) skips when `V[x]` equals `V[y]`; `5XYn` with `n ≠ 0` is illegal by decision D12 (log
entry 17). -/
def Obligations.SkipIfRegistersEqual : Prop :=
  (∀ w : Word, fieldOp w = 0x5#4 → fieldN w = 0x0#4 → decodeWord w = .ok (.seVxVy (fieldX w) (fieldY w))) ∧
  (∀ w : Word, fieldOp w = 0x5#4 → fieldN w ≠ 0x0#4 → decodeWord w = .error (.family5 w)) ∧
  ∀ (x y : Nibble) (s : State), ∃ t, exec (.seVxVy x y) s = .next t ∧
    t.pc = (if s.getV x = s.getV y then s.pc + 4#16 else s.pc + 2#16) ∧ SameBut [.pc] s t

/-- 9XY0 (42_index_jump_random.md SNE) skips when `V[x]` differs from `V[y]`, the complement of 5XY0; `9XYn` with
`n ≠ 0` is illegal by decision D12 (log entry 17). -/
def Obligations.SkipIfRegistersDiffer : Prop :=
  (∀ w : Word, fieldOp w = 0x9#4 → fieldN w = 0x0#4 → decodeWord w = .ok (.sneVxVy (fieldX w) (fieldY w))) ∧
  (∀ w : Word, fieldOp w = 0x9#4 → fieldN w ≠ 0x0#4 → decodeWord w = .error (.family9 w)) ∧
  ∀ (x y : Nibble) (s : State), ∃ t, exec (.sneVxVy x y) s = .next t ∧
    t.pc = (if s.getV x = s.getV y then s.pc + 2#16 else s.pc + 4#16) ∧ SameBut [.pc] s t

/-! ### Families 6–8 (spec 41_alu.md) -/

/-- R120, R121: 6XKK loads `kk`; 7XKK adds it modulo 2^8 and writes no flag. -/
def Obligations.ImmediateLoadAndAdd : Prop :=
  (∀ w : Word, fieldOp w = 0x6#4 → decodeWord w = .ok (.ldVxByte (fieldX w) (fieldKK w))) ∧
  (∀ w : Word, fieldOp w = 0x7#4 → decodeWord w = .ok (.addVxByte (fieldX w) (fieldKK w))) ∧
  ∀ (x : Nibble) (kk : Byte) (s : State),
    (∃ t, exec (.ldVxByte x kk) s = .next t ∧ t.getV x = kk ∧ t.pc = s.pc + 2#16 ∧ SameBut [.reg x, .pc] s t) ∧
    (∃ t, exec (.addVxByte x kk) s = .next t ∧ (t.getV x).toNat = ((s.getV x).toNat + kk.toNat) % 256 ∧
      t.pc = s.pc + 2#16 ∧ SameBut [.reg x, .pc] s t)

/-- R122–R125: 8XY0 copies, 8XY1, 8XY2 and 8XY3 combine bit by bit; VF is kept unless it is the destination. -/
def Obligations.CopyAndBitwise : Prop :=
  (∀ w : Word, fieldOp w = 0x8#4 → fieldN w = 0x0#4 → decodeWord w = .ok (.ldVxVy (fieldX w) (fieldY w))) ∧
  (∀ w : Word, fieldOp w = 0x8#4 → fieldN w = 0x1#4 → decodeWord w = .ok (.orVxVy (fieldX w) (fieldY w))) ∧
  (∀ w : Word, fieldOp w = 0x8#4 → fieldN w = 0x2#4 → decodeWord w = .ok (.andVxVy (fieldX w) (fieldY w))) ∧
  (∀ w : Word, fieldOp w = 0x8#4 → fieldN w = 0x3#4 → decodeWord w = .ok (.xorVxVy (fieldX w) (fieldY w))) ∧
  ∀ (x y : Nibble) (s : State),
    (∃ t, exec (.ldVxVy x y) s = .next t ∧ t.getV x = s.getV y ∧ t.pc = s.pc + 2#16 ∧ SameBut [.reg x, .pc] s t) ∧
    (∃ t, exec (.orVxVy x y) s = .next t ∧
      (∀ k < 8, (t.getV x).getLsbD k = ((s.getV x).getLsbD k || (s.getV y).getLsbD k)) ∧
      t.pc = s.pc + 2#16 ∧ SameBut [.reg x, .pc] s t) ∧
    (∃ t, exec (.andVxVy x y) s = .next t ∧
      (∀ k < 8, (t.getV x).getLsbD k = ((s.getV x).getLsbD k && (s.getV y).getLsbD k)) ∧
      t.pc = s.pc + 2#16 ∧ SameBut [.reg x, .pc] s t) ∧
    (∃ t, exec (.xorVxVy x y) s = .next t ∧
      (∀ k < 8, (t.getV x).getLsbD k = Bool.xor ((s.getV x).getLsbD k) ((s.getV y).getLsbD k)) ∧
      t.pc = s.pc + 2#16 ∧ SameBut [.reg x, .pc] s t)

/-- 8XY4 (41_alu.md R126) writes the sum modulo 2^8, then the carry to VF; that the carry wins for `x = 15`, and that
the operands are those before the instruction, is decision D9 (log entry 14). -/
def Obligations.AddSetsCarry : Prop :=
  (∀ w : Word, fieldOp w = 0x8#4 → fieldN w = 0x4#4 → decodeWord w = .ok (.addVxVy (fieldX w) (fieldY w))) ∧
  ∀ (x y : Nibble) (s : State), ∃ t, exec (.addVxVy x y) s = .next t ∧
    t.getV 0xF#4 = (if (s.getV x).toNat + (s.getV y).toNat > 255 then 0x01#8 else 0x00#8) ∧
    (x ≠ 0xF#4 → (t.getV x).toNat = ((s.getV x).toNat + (s.getV y).toNat) % 256) ∧
    t.pc = s.pc + 2#16 ∧ SameBut [.reg x, .reg 0xF#4, .pc] s t

/-- 8XY5 (41_alu.md R127) writes the difference modulo 2^8, then VF = 1 when there is no borrow (equal operands
included), else 0; that the flag wins for `x = 15`, and that the operands are those before the instruction, is decision
D9 (log entry 14). -/
def Obligations.SubSetsNotBorrow : Prop :=
  (∀ w : Word, fieldOp w = 0x8#4 → fieldN w = 0x5#4 → decodeWord w = .ok (.subVxVy (fieldX w) (fieldY w))) ∧
  ∀ (x y : Nibble) (s : State), ∃ t, exec (.subVxVy x y) s = .next t ∧
    t.getV 0xF#4 = (if (s.getV y).toNat ≤ (s.getV x).toNat then 0x01#8 else 0x00#8) ∧
    (x ≠ 0xF#4 → (t.getV x).toNat = ((s.getV x).toNat + 256 - (s.getV y).toNat) % 256) ∧
    t.pc = s.pc + 2#16 ∧ SameBut [.reg x, .reg 0xF#4, .pc] s t

/-- 8XY7 (41_alu.md SUBN) writes the reverse difference, then VF = 1 when `V[y] > V[x]` strictly, on the operands
before the instruction (decision D9, log entry 14). -/
def Obligations.SubnSetsStrictlyAbove : Prop :=
  (∀ w : Word, fieldOp w = 0x8#4 → fieldN w = 0x7#4 → decodeWord w = .ok (.subnVxVy (fieldX w) (fieldY w))) ∧
  ∀ (x y : Nibble) (s : State), ∃ t, exec (.subnVxVy x y) s = .next t ∧
    t.getV 0xF#4 = (if (s.getV x).toNat < (s.getV y).toNat then 0x01#8 else 0x00#8) ∧
    (x ≠ 0xF#4 → (t.getV x).toNat = ((s.getV y).toNat + 256 - (s.getV x).toNat) % 256) ∧
    t.pc = s.pc + 2#16 ∧ SameBut [.reg x, .reg 0xF#4, .pc] s t

/-- 8XY6 and 8XYE (41_alu.md SHR and SHL) shift `V[x]` in place whatever `y` is, with the bit shifted out in VF; for
`x = 15` VF ends as the shifted value (decision D9, log entry 14). -/
def Obligations.ShiftsInPlace : Prop :=
  (∀ w : Word, fieldOp w = 0x8#4 → fieldN w = 0x6#4 → decodeWord w = .ok (.shrVx (fieldX w))) ∧
  (∀ w : Word, fieldOp w = 0x8#4 → fieldN w = 0xE#4 → decodeWord w = .ok (.shlVx (fieldX w))) ∧
  ∀ (x : Nibble) (s : State),
    (∃ t, exec (.shrVx x) s = .next t ∧ (t.getV x).toNat = (s.getV x).toNat / 2 ∧
      (x ≠ 0xF#4 → (t.getV 0xF#4).toNat = (s.getV x).toNat % 2) ∧
      t.pc = s.pc + 2#16 ∧ SameBut [.reg x, .reg 0xF#4, .pc] s t) ∧
    (∃ t, exec (.shlVx x) s = .next t ∧ (t.getV x).toNat = (s.getV x).toNat * 2 % 256 ∧
      (x ≠ 0xF#4 → (t.getV 0xF#4).toNat = (s.getV x).toNat / 128) ∧
      t.pc = s.pc + 2#16 ∧ SameBut [.reg x, .reg 0xF#4, .pc] s t)

/-! ### Families 9–C (spec 42_index_jump_random.md) and index arithmetic -/

/-- R141, R187, R188: ANNN loads `nnn`, FX1E adds `V[x]` modulo 2^16 with no flag, FX29 loads `V[x] * 5`. -/
def Obligations.IndexWrites : Prop :=
  (∀ w : Word, fieldOp w = 0xA#4 → decodeWord w = .ok (.ldIAddr (fieldNNN w))) ∧
  (∀ w : Word, fieldOp w = 0xF#4 → fieldKK w = 0x1E#8 → decodeWord w = .ok (.addIVx (fieldX w))) ∧
  (∀ w : Word, fieldOp w = 0xF#4 → fieldKK w = 0x29#8 → decodeWord w = .ok (.ldFVx (fieldX w))) ∧
  (∀ (nnn : Addr) (s : State), ∃ t, exec (.ldIAddr nnn) s = .next t ∧ t.i.toNat = nnn.toNat ∧ t.pc = s.pc + 2#16 ∧
    SameBut [.index, .pc] s t) ∧
  ∀ (x : Nibble) (s : State),
    (∃ t, exec (.addIVx x) s = .next t ∧ t.i.toNat = (s.i.toNat + (s.getV x).toNat) % 65536 ∧ t.pc = s.pc + 2#16 ∧
      SameBut [.index, .pc] s t) ∧
    (∃ t, exec (.ldFVx x) s = .next t ∧ t.i.toNat = (s.getV x).toNat * 5 ∧ t.pc = s.pc + 2#16 ∧
      SameBut [.index, .pc] s t)

/-- R142: BNNN jumps to `nnn + V0`, always V0, and the sum is not masked. -/
def Obligations.JumpPlusV0 : Prop :=
  (∀ w : Word, fieldOp w = 0xB#4 → decodeWord w = .ok (.jpV0Addr (fieldNNN w))) ∧
  ∀ (nnn : Addr) (s : State), ∃ t, exec (.jpV0Addr nnn) s = .next t ∧
    t.pc.toNat = nnn.toNat + (s.getV 0x0#4).toNat ∧ SameBut [.pc] s t

/-- CXKK (42_index_jump_random.md RND) under decision D15 (log entries 11 and 12): `V[x]` is the drawn byte AND `kk`,
whatever byte that is; exactly one byte is drawn; bits outside `kk` are 0; a supplied draw is the one used. -/
def Obligations.RandomByteIsMaskedAndDrawnOnce : Prop :=
  (∀ w : Word, fieldOp w = 0xC#4 → decodeWord w = .ok (.rndVxByte (fieldX w) (fieldKK w))) ∧
  ∀ (x : Nibble) (kk : Byte) (s : State), ∃ t, exec (.rndVxByte x kk) s = .next t ∧
    t.getV x = s.rng.draw.1 &&& kk ∧ t.getV x &&& ~~~ kk = 0x00#8 ∧
    t.rng.drawn = s.rng.drawn + 1 ∧ t.rng.seed = s.rng.seed ∧
    (∀ b bs, s.rng.supplied = b :: bs → t.getV x = b &&& kk ∧ t.rng.supplied = bs) ∧
    t.pc = s.pc + 2#16 ∧ SameBut [.reg x, .rng, .pc] s t

/-! ### Family D (spec 43_draw.md) -/

/-- R151, R152: DXYN XORs the `n` bytes at `I` into the screen at (`V[x]`, `V[y]`), most significant bit first, each
column modulo 64 and each row modulo 32; VF is 1 when some pixel went from 1 to 0, else 0, even when `n = 0`; `I` and
everything else is kept. -/
def Obligations.DrawXorsSpriteAndReportsCollision : Prop :=
  (∀ w : Word, fieldOp w = 0xD#4 → decodeWord w = .ok (.drw (fieldX w) (fieldY w) (fieldN w))) ∧
  ∀ (x y n : Nibble) (s : State), ∃ t, exec (.drw x y n) s = .next t ∧
    (∀ r c, t.fb.cell r c = Bool.xor (s.fb.cell r c) (spritePixel s s.i (s.getV x) (s.getV y) n.toNat r c)) ∧
    ((∃ r c, s.fb.cell r c = true ∧ t.fb.cell r c = false) → t.getV 0xF#4 = 0x01#8) ∧
    ((∀ r c, s.fb.cell r c = true → t.fb.cell r c = true) → t.getV 0xF#4 = 0x00#8) ∧
    t.pc = s.pc + 2#16 ∧ SameBut [.fb, .reg 0xF#4, .pc] s t

/-- The source's property "drawing the same non-zero sprite byte twice" (43_draw.md DRW, example): with coordinates not
in VF, the second draw restores every cell, and it reports a collision when the sprite has a 1 that fell on a 0. -/
def Obligations.DrawingTwiceRestoresScreen : Prop :=
  ∀ (x y n : Nibble) (s t u : State), x ≠ 0xF#4 → y ≠ 0xF#4 → exec (.drw x y n) s = .next t →
    exec (.drw x y n) t = .next u →
    u.fb = s.fb ∧
    ((∃ r c, s.fb.cell r c = false ∧ spritePixel s s.i (s.getV x) (s.getV y) n.toNat r c = true) →
      u.getV 0xF#4 = 0x01#8)

/-! ### Family E (spec 44_keys.md) -/

/-- R170, R173, R174: EX9E skips exactly when the latch holds the code `V[x]`, all eight bits of it; EXA1 exactly when
it does not; both change nothing but PC, the latch included. -/
def Obligations.KeySkips : Prop :=
  (∀ w : Word, fieldOp w = 0xE#4 → fieldKK w = 0x9E#8 → decodeWord w = .ok (.skpVx (fieldX w))) ∧
  (∀ w : Word, fieldOp w = 0xE#4 → fieldKK w = 0xA1#8 → decodeWord w = .ok (.sknpVx (fieldX w))) ∧
  (∀ (s : State) (c : Byte), s.keyIsPressed c = true ↔ s.key.map BitVec.toNat = some c.toNat) ∧
  ∀ (x : Nibble) (s : State),
    (∃ t, exec (.skpVx x) s = .next t ∧
      t.pc = (if s.key.map BitVec.toNat = some (s.getV x).toNat then s.pc + 4#16 else s.pc + 2#16) ∧ SameBut [.pc] s t) ∧
    (∃ t, exec (.sknpVx x) s = .next t ∧
      t.pc = (if s.key.map BitVec.toNat = some (s.getV x).toNat then s.pc + 2#16 else s.pc + 4#16) ∧ SameBut [.pc] s t)

/-! ### Family F (spec 45_fx.md) -/

/-- R180, R185: FX15 captures the instant, a reading of the clock not earlier than any before, and stores `V[x]` as the
magnitude; with 0 every later reading of the timer is 0. -/
def Obligations.TimerSetCapturesNow : Prop :=
  (∀ w : Word, fieldOp w = 0xF#4 → fieldKK w = 0x15#8 → decodeWord w = .ok (.ldDtVx (fieldX w))) ∧
  ∀ (x : Nibble) (s : State), ∃ t, exec (.ldDtVx x) s = .next t ∧ t.tInit = s.getV x ∧
    t.tStart = t.clock.last ∧ s.clock.last ≤ t.tStart ∧ t.clock.reads = s.clock.reads + 1 ∧
    (s.getV x = 0x00#8 → ∀ u : State, u.tInit = t.tInit → u.timerGet = 0x00#8) ∧
    t.pc = s.pc + 2#16 ∧ SameBut [.timer, .clock, .pc] s t

/-- FX07 (45_fx.md LD Vx, DT) under decisions D7 and D8 (log entries 10 and 15): with the timer started no later than
the clock's last reading, `V[x]` is the magnitude less the whole 16 ms ticks from the start to a reading taken now, and
not below 0; the timer's fields are kept. -/
def Obligations.TimerReadSubtractsWholeTicks : Prop :=
  (∀ w : Word, fieldOp w = 0xF#4 → fieldKK w = 0x07#8 → decodeWord w = .ok (.ldVxDt (fieldX w))) ∧
  (∀ (x : Nibble) (s : State), s.tStart ≤ s.clock.last →
    ∃ t, exec (.ldVxDt x) s = .next t ∧ s.clock.last ≤ t.clock.last ∧ t.clock.reads = s.clock.reads + 1 ∧
      ((t.getV x).toNat : Int) = max 0 ((s.tInit.toNat : Int) - ((t.clock.last : Int) - s.tStart) / 16000000) ∧
      t.pc = s.pc + 2#16 ∧ SameBut [.reg x, .clock, .pc] s t) ∧
  (∀ (x : Nibble) (s : State), ∃ t, exec (.ldVxDt x) s = .next t)

/-- Two readings of the timer with no FX15 between them (45_fx.md LD Vx, DT, derived there): the later is never larger.
After `FX15` of magnitude `m`, a reading is `m` before the first tick and 0 exactly from `m` times 16 ms on (decision D7,
log entry 15). What lies between is any run without an FX15: the second instruction starts in any state with the timer's
fields as the first left them and a clock not earlier. -/
def Obligations.TimerNeverRisesAndExpires : Prop :=
  (∀ (x y : Nibble) (s t s' u : State), exec (.ldVxDt x) s = .next t →
    s'.tStart = t.tStart → s'.tInit = t.tInit → t.clock.last ≤ s'.clock.last →
    exec (.ldVxDt y) s' = .next u → (u.getV y).toNat ≤ (t.getV x).toNat) ∧
  (∀ (x y : Nibble) (s t s' u : State), exec (.ldDtVx x) s = .next t →
    s'.tStart = t.tStart → s'.tInit = t.tInit → t.clock.last ≤ s'.clock.last → exec (.ldVxDt y) s' = .next u →
    (u.getV y = 0x00#8 ↔ (s.getV x).toNat * 16000000 ≤ u.clock.last - t.clock.last) ∧
    (u.clock.last - t.clock.last < 16000000 → u.getV y = s.getV x))

/-- FX0A (45_fx.md LD Vx, K) under C1 and decision D2 (log entry 13): PC advances by 2 whether or not a key is latched;
with a key `V[x]` is its code, with none `V[x]` is kept; the latch is kept. -/
def Obligations.KeyWaitNeverBlocks : Prop :=
  (∀ w : Word, fieldOp w = 0xF#4 → fieldKK w = 0x0A#8 → decodeWord w = .ok (.ldVxK (fieldX w))) ∧
  ∀ (x : Nibble) (s : State), ∃ t, exec (.ldVxK x) s = .next t ∧
    (∀ c, s.key = some c → (t.getV x).toNat = c.toNat) ∧ (s.key = none → t.getV x = s.getV x) ∧
    t.pc = s.pc + 2#16 ∧ SameBut [.reg x, .pc] s t

/-- R186: FX18 only advances PC, whatever its `x` field is. -/
def Obligations.SoundTimerIsNoOp : Prop :=
  (∀ w : Word, fieldOp w = 0xF#4 → fieldKK w = 0x18#8 → decodeWord w = .ok .ldStVx) ∧
  ∀ s : State, ∃ t, exec .ldStVx s = .next t ∧ t.pc = s.pc + 2#16 ∧ SameBut [.pc] s t

/-- R189: FX33 stores the hundreds, tens and ones of `V[x]` at `I`, `I + 1`, `I + 2`, each masked, and changes no other
byte; `I` is kept. -/
def Obligations.BcdDigitsAreStored : Prop :=
  (∀ w : Word, fieldOp w = 0xF#4 → fieldKK w = 0x33#8 → decodeWord w = .ok (.ldBVx (fieldX w))) ∧
  ∀ (x : Nibble) (s : State), ∃ t, exec (.ldBVx x) s = .next t ∧
    (t.memRead s.i).toNat = (s.getV x).toNat / 100 ∧
    (t.memRead (s.i + 1#16)).toNat = (s.getV x).toNat / 10 % 10 ∧
    (t.memRead (s.i + 2#16)).toNat = (s.getV x).toNat % 10 ∧
    (∀ b : Word, maskAddr b ≠ maskAddr s.i → maskAddr b ≠ maskAddr (s.i + 1#16) → maskAddr b ≠ maskAddr (s.i + 2#16) →
      t.memRead b = s.memRead b) ∧
    t.pc = s.pc + 2#16 ∧ SameBut [.mem, .pc] s t

/-- FX55 (45_fx.md LD [I], Vx): `V0`..`V[x]` are stored from `I` on, no other byte changes, and `I` advances by `x + 1`
modulo 2^16 (decision D11, log entry 16). -/
def Obligations.RegistersAreStoredAndIndexAdvances : Prop :=
  (∀ w : Word, fieldOp w = 0xF#4 → fieldKK w = 0x55#8 → decodeWord w = .ok (.ldMemVx (fieldX w))) ∧
  ∀ (x : Nibble) (s : State), ∃ t, exec (.ldMemVx x) s = .next t ∧
    (∀ k : Nibble, k.toNat ≤ x.toNat → t.memRead (s.i + k.setWidth 16) = s.getV k) ∧
    (∀ b : Word, (∀ k : Nibble, k.toNat ≤ x.toNat → maskAddr b ≠ maskAddr (s.i + k.setWidth 16)) →
      t.memRead b = s.memRead b) ∧
    t.i.toNat = (s.i.toNat + x.toNat + 1) % 65536 ∧
    t.pc = s.pc + 2#16 ∧ SameBut [.mem, .index, .pc] s t

/-- R191: FX65 loads `V0`..`V[x]` from `I` on and keeps `I` and every other register. -/
def Obligations.RegistersAreLoadedAndIndexKept : Prop :=
  (∀ w : Word, fieldOp w = 0xF#4 → fieldKK w = 0x65#8 → decodeWord w = .ok (.ldVxMem (fieldX w))) ∧
  ∀ (x : Nibble) (s : State), ∃ t, exec (.ldVxMem x) s = .next t ∧
    (∀ k : Nibble, k.toNat ≤ x.toNat → t.getV k = s.memRead (s.i + k.setWidth 16)) ∧
    t.i = s.i ∧ t.pc = s.pc + 2#16 ∧ SameBut (firstRegs (x.toNat + 1) ++ [.pc]) s t

/-! ### Reset and the host (spec 10_state.md §6, 70_reset_and_hazards.md) -/

/-- R42, R43, R46: after reset PC is 0x200, SP is 0 and every framebuffer cell is 0. -/
def Obligations.ResetValuesOfTheSource : Prop :=
  State.reset.pc = 0x0200#16 ∧ State.reset.sp = 0x00#8 ∧
  ∀ (r : BitVec 5) (c : BitVec 6), State.reset.fb.cell r c = false

/-- The reset values the spec decides itself (10_state.md §6, decisions D3–D6, D16; log entries 1 and 4–9) and the font
(20_memory.md R62, decision D24, PRESUMED, log entry 18): registers, `I` and stack 0, no key, timer 0, running, the font
at 0..79, its 80 bytes written out, and every other byte 0. -/
def Obligations.ResetValuesOfTheDecisions : Prop :=
  (∀ x : Nibble, State.reset.getV x = 0x00#8) ∧ State.reset.i = 0x0000#16 ∧
  (∀ k : Fin 16, State.reset.stack[k] = 0x0000#16) ∧ State.reset.key = none ∧ State.reset.tInit = 0x00#8 ∧
  State.reset.timerGet = 0x00#8 ∧ State.reset.run = .running ∧
  (∀ a : Word, 80 ≤ maskAddr a → State.reset.memRead a = 0x00#8) ∧
  (∀ k : Fin 80, State.reset.memRead (BitVec.ofNat 16 k.val) = fontTable[k]?.getD 0x00#8) ∧
  fontTable.length = 80 ∧
  fontTable =
    [0xF0#8, 0x90#8, 0x90#8, 0x90#8, 0xF0#8,  0x20#8, 0x60#8, 0x20#8, 0x20#8, 0x70#8] ++
    [0xF0#8, 0x10#8, 0xF0#8, 0x80#8, 0xF0#8,  0xF0#8, 0x10#8, 0xF0#8, 0x10#8, 0xF0#8] ++
    [0x90#8, 0x90#8, 0xF0#8, 0x10#8, 0x10#8,  0xF0#8, 0x80#8, 0xF0#8, 0x10#8, 0xF0#8] ++
    [0xF0#8, 0x80#8, 0xF0#8, 0x90#8, 0xF0#8,  0xF0#8, 0x10#8, 0x20#8, 0x40#8, 0x40#8] ++
    [0xF0#8, 0x90#8, 0xF0#8, 0x90#8, 0xF0#8,  0xF0#8, 0x90#8, 0xF0#8, 0x10#8, 0xF0#8] ++
    [0xF0#8, 0x90#8, 0xF0#8, 0x90#8, 0x90#8,  0xE0#8, 0x90#8, 0xE0#8, 0x90#8, 0xE0#8] ++
    [0xF0#8, 0x80#8, 0x80#8, 0x80#8, 0xF0#8,  0xE0#8, 0x90#8, 0x90#8, 0x90#8, 0xE0#8] ++
    [0xF0#8, 0x80#8, 0xF0#8, 0x80#8, 0xF0#8,  0xF0#8, 0x80#8, 0xF0#8, 0x80#8, 0x80#8]

/-- `LoadRom` (70_reset_and_hazards.md §2) under decision D20 (log entry 23): an image of 1 to 3584 bytes lands at 0x200
and after, every other byte and part is kept; any other image is rejected. -/
def Obligations.RomIsLoadedAtProgramBase : Prop :=
  ∀ (s : State) (rom : List Byte),
    (1 ≤ rom.length ∧ rom.length ≤ 3584 →
      ∃ t, s.perform (.loadRom rom) = .next (t, .done) ∧ SameBut [.mem] s t ∧
        ∀ a : Word, t.memRead a =
          if 0x200 ≤ maskAddr a then (rom[maskAddr a - 0x200]?).getD (s.memRead a) else s.memRead a) ∧
    (rom.length = 0 ∨ 3584 < rom.length → s.perform (.loadRom rom) = .refused .romRejected)

/-- `SetKey`, `Snapshot` and `Status` (44_keys.md, 43_draw.md, 70_reset_and_hazards.md §6) under decisions D16 and D21
(log entry 23): the latch is replaced wholesale, a code above 15 is refused, and looking changes nothing. -/
def Obligations.HostKeyAndViews : Prop :=
  ∀ s : State,
    (∃ t, s.perform (.setKey none) = .next (t, .done) ∧ t.key = none ∧ SameBut [.key] s t) ∧
    (∀ c : Nat, c ≤ 15 →
      ∃ t, s.perform (.setKey (some c)) = .next (t, .done) ∧ t.key.map BitVec.toNat = some c ∧ SameBut [.key] s t) ∧
    (∀ c : Nat, 15 < c → s.perform (.setKey (some c)) = .refused .keyCodeInvalid) ∧
    s.perform .snapshot = .next (s, .pixels s.fb.snapshot) ∧
    s.perform .status = .next (s, .status s.run)

/-- `Reset` (70_reset_and_hazards.md §1, decisions D3–D6, D16, D23; log entries 9, 25, 26): from any state, running or
faulted, the block is as after construction; only the clock and the count of draws go on. -/
def Obligations.ResetReconstructsFromAnyState : Prop :=
  ∀ (s : State) (seed : Nat), ∃ t, s.perform (.reset { seed := seed }) = .next (t, .done) ∧
    SameBut [.rng, .timer, .clock] State.reset t ∧ t.rng.seed = seed ∧ t.tInit = 0x00#8 ∧
    t.tStart = t.clock.last ∧ s.clock.last ≤ t.tStart ∧ t.rng.drawn = s.rng.drawn ∧ t.rng.supplied = [] ∧
    t.clock.reads = s.clock.reads + 1 ∧ t.clock.supplied = []
end

