-- ==== Sys2Proof/Laws/State.lean ====
section
/-! SUPPORT. One small lemma for each field and each update of the state, so that no later proof unfolds a record
update; and what each update does to what is read through `getV` and `memRead`. -/

namespace Sys2Proof.Machine

variable (s : State)

/-! ### memWrite -/

@[simp] theorem State.memWrite_v (a : Word) (b : Byte) : (s.memWrite a b).v = s.v := rfl
@[simp] theorem State.memWrite_i (a : Word) (b : Byte) : (s.memWrite a b).i = s.i := rfl
@[simp] theorem State.memWrite_pc (a : Word) (b : Byte) : (s.memWrite a b).pc = s.pc := rfl
@[simp] theorem State.memWrite_stack (a : Word) (b : Byte) : (s.memWrite a b).stack = s.stack := rfl
@[simp] theorem State.memWrite_sp (a : Word) (b : Byte) : (s.memWrite a b).sp = s.sp := rfl
@[simp] theorem State.memWrite_rng (a : Word) (b : Byte) : (s.memWrite a b).rng = s.rng := rfl
@[simp] theorem State.memWrite_run (a : Word) (b : Byte) : (s.memWrite a b).run = s.run := rfl
@[simp] theorem State.memWrite_mem (a : Word) (b : Byte) : (s.memWrite a b).mem = Memory.write s.mem (maskAddr a) b := rfl
@[simp] theorem State.memWrite_fb (a : Word) (b : Byte) : (s.memWrite a b).fb = s.fb := rfl
@[simp] theorem State.memWrite_key (a : Word) (b : Byte) : (s.memWrite a b).key = s.key := rfl
@[simp] theorem State.memWrite_tStart (a : Word) (b : Byte) : (s.memWrite a b).tStart = s.tStart := rfl
@[simp] theorem State.memWrite_tInit (a : Word) (b : Byte) : (s.memWrite a b).tInit = s.tInit := rfl
@[simp] theorem State.memWrite_clock (a : Word) (b : Byte) : (s.memWrite a b).clock = s.clock := rfl
@[simp] theorem State.memWrite_getV (a : Word) (b : Byte) (j : Nibble) : (s.memWrite a b).getV j = s.getV j := rfl

/-! ### setV -/

@[simp] theorem State.setV_i (x : Nibble) (b : Byte) : (s.setV x b).i = s.i := rfl
@[simp] theorem State.setV_pc (x : Nibble) (b : Byte) : (s.setV x b).pc = s.pc := rfl
@[simp] theorem State.setV_stack (x : Nibble) (b : Byte) : (s.setV x b).stack = s.stack := rfl
@[simp] theorem State.setV_sp (x : Nibble) (b : Byte) : (s.setV x b).sp = s.sp := rfl
@[simp] theorem State.setV_rng (x : Nibble) (b : Byte) : (s.setV x b).rng = s.rng := rfl
@[simp] theorem State.setV_run (x : Nibble) (b : Byte) : (s.setV x b).run = s.run := rfl
@[simp] theorem State.setV_mem (x : Nibble) (b : Byte) : (s.setV x b).mem = s.mem := rfl
@[simp] theorem State.setV_fb (x : Nibble) (b : Byte) : (s.setV x b).fb = s.fb := rfl
@[simp] theorem State.setV_key (x : Nibble) (b : Byte) : (s.setV x b).key = s.key := rfl
@[simp] theorem State.setV_tStart (x : Nibble) (b : Byte) : (s.setV x b).tStart = s.tStart := rfl
@[simp] theorem State.setV_tInit (x : Nibble) (b : Byte) : (s.setV x b).tInit = s.tInit := rfl
@[simp] theorem State.setV_clock (x : Nibble) (b : Byte) : (s.setV x b).clock = s.clock := rfl
@[simp] theorem State.setV_memRead (x : Nibble) (b : Byte) (a' : Word) : (s.setV x b).memRead a' = s.memRead a' := rfl

/-! ### setI -/

@[simp] theorem State.setI_v (a : Word) : (s.setI a).v = s.v := rfl
@[simp] theorem State.setI_i (a : Word) : (s.setI a).i = a := rfl
@[simp] theorem State.setI_pc (a : Word) : (s.setI a).pc = s.pc := rfl
@[simp] theorem State.setI_stack (a : Word) : (s.setI a).stack = s.stack := rfl
@[simp] theorem State.setI_sp (a : Word) : (s.setI a).sp = s.sp := rfl
@[simp] theorem State.setI_rng (a : Word) : (s.setI a).rng = s.rng := rfl
@[simp] theorem State.setI_run (a : Word) : (s.setI a).run = s.run := rfl
@[simp] theorem State.setI_mem (a : Word) : (s.setI a).mem = s.mem := rfl
@[simp] theorem State.setI_fb (a : Word) : (s.setI a).fb = s.fb := rfl
@[simp] theorem State.setI_key (a : Word) : (s.setI a).key = s.key := rfl
@[simp] theorem State.setI_tStart (a : Word) : (s.setI a).tStart = s.tStart := rfl
@[simp] theorem State.setI_tInit (a : Word) : (s.setI a).tInit = s.tInit := rfl
@[simp] theorem State.setI_clock (a : Word) : (s.setI a).clock = s.clock := rfl
@[simp] theorem State.setI_getV (a : Word) (j : Nibble) : (s.setI a).getV j = s.getV j := rfl
@[simp] theorem State.setI_memRead (a : Word) (a' : Word) : (s.setI a).memRead a' = s.memRead a' := rfl

/-! ### jump -/

@[simp] theorem State.jump_v (a : Word) : (s.jump a).v = s.v := rfl
@[simp] theorem State.jump_i (a : Word) : (s.jump a).i = s.i := rfl
@[simp] theorem State.jump_pc (a : Word) : (s.jump a).pc = a := rfl
@[simp] theorem State.jump_stack (a : Word) : (s.jump a).stack = s.stack := rfl
@[simp] theorem State.jump_sp (a : Word) : (s.jump a).sp = s.sp := rfl
@[simp] theorem State.jump_rng (a : Word) : (s.jump a).rng = s.rng := rfl
@[simp] theorem State.jump_run (a : Word) : (s.jump a).run = s.run := rfl
@[simp] theorem State.jump_mem (a : Word) : (s.jump a).mem = s.mem := rfl
@[simp] theorem State.jump_fb (a : Word) : (s.jump a).fb = s.fb := rfl
@[simp] theorem State.jump_key (a : Word) : (s.jump a).key = s.key := rfl
@[simp] theorem State.jump_tStart (a : Word) : (s.jump a).tStart = s.tStart := rfl
@[simp] theorem State.jump_tInit (a : Word) : (s.jump a).tInit = s.tInit := rfl
@[simp] theorem State.jump_clock (a : Word) : (s.jump a).clock = s.clock := rfl
@[simp] theorem State.jump_getV (a : Word) (j : Nibble) : (s.jump a).getV j = s.getV j := rfl
@[simp] theorem State.jump_memRead (a : Word) (a' : Word) : (s.jump a).memRead a' = s.memRead a' := rfl

/-! ### advance -/

@[simp] theorem State.advance_v : (s.advance).v = s.v := rfl
@[simp] theorem State.advance_i : (s.advance).i = s.i := rfl
@[simp] theorem State.advance_pc : (s.advance).pc = s.pc + 2#16 := rfl
@[simp] theorem State.advance_stack : (s.advance).stack = s.stack := rfl
@[simp] theorem State.advance_sp : (s.advance).sp = s.sp := rfl
@[simp] theorem State.advance_rng : (s.advance).rng = s.rng := rfl
@[simp] theorem State.advance_run : (s.advance).run = s.run := rfl
@[simp] theorem State.advance_mem : (s.advance).mem = s.mem := rfl
@[simp] theorem State.advance_fb : (s.advance).fb = s.fb := rfl
@[simp] theorem State.advance_key : (s.advance).key = s.key := rfl
@[simp] theorem State.advance_tStart : (s.advance).tStart = s.tStart := rfl
@[simp] theorem State.advance_tInit : (s.advance).tInit = s.tInit := rfl
@[simp] theorem State.advance_clock : (s.advance).clock = s.clock := rfl
@[simp] theorem State.advance_getV (j : Nibble) : (s.advance).getV j = s.getV j := rfl
@[simp] theorem State.advance_memRead (a' : Word) : (s.advance).memRead a' = s.memRead a' := rfl

/-! ### skipIf -/

@[simp] theorem State.skipIf_v (c : Bool) : (s.skipIf c).v = s.v := rfl
@[simp] theorem State.skipIf_i (c : Bool) : (s.skipIf c).i = s.i := rfl
@[simp] theorem State.skipIf_pc (c : Bool) : (s.skipIf c).pc = s.pc + if c then 4#16 else 2#16 := rfl
@[simp] theorem State.skipIf_stack (c : Bool) : (s.skipIf c).stack = s.stack := rfl
@[simp] theorem State.skipIf_sp (c : Bool) : (s.skipIf c).sp = s.sp := rfl
@[simp] theorem State.skipIf_rng (c : Bool) : (s.skipIf c).rng = s.rng := rfl
@[simp] theorem State.skipIf_run (c : Bool) : (s.skipIf c).run = s.run := rfl
@[simp] theorem State.skipIf_mem (c : Bool) : (s.skipIf c).mem = s.mem := rfl
@[simp] theorem State.skipIf_fb (c : Bool) : (s.skipIf c).fb = s.fb := rfl
@[simp] theorem State.skipIf_key (c : Bool) : (s.skipIf c).key = s.key := rfl
@[simp] theorem State.skipIf_tStart (c : Bool) : (s.skipIf c).tStart = s.tStart := rfl
@[simp] theorem State.skipIf_tInit (c : Bool) : (s.skipIf c).tInit = s.tInit := rfl
@[simp] theorem State.skipIf_clock (c : Bool) : (s.skipIf c).clock = s.clock := rfl
@[simp] theorem State.skipIf_getV (c : Bool) (j : Nibble) : (s.skipIf c).getV j = s.getV j := rfl
@[simp] theorem State.skipIf_memRead (c : Bool) (a' : Word) : (s.skipIf c).memRead a' = s.memRead a' := rfl

/-! ### push -/

@[simp] theorem State.push_v (a : Word) : (s.push a).v = s.v := rfl
@[simp] theorem State.push_i (a : Word) : (s.push a).i = s.i := rfl
@[simp] theorem State.push_pc (a : Word) : (s.push a).pc = s.pc := rfl
@[simp] theorem State.push_stack (a : Word) : (s.push a).stack = s.stack.setIfInBounds (s.sp + 1#8).toNat a := rfl
@[simp] theorem State.push_sp (a : Word) : (s.push a).sp = s.sp + 1#8 := rfl
@[simp] theorem State.push_rng (a : Word) : (s.push a).rng = s.rng := rfl
@[simp] theorem State.push_run (a : Word) : (s.push a).run = s.run := rfl
@[simp] theorem State.push_mem (a : Word) : (s.push a).mem = s.mem := rfl
@[simp] theorem State.push_fb (a : Word) : (s.push a).fb = s.fb := rfl
@[simp] theorem State.push_key (a : Word) : (s.push a).key = s.key := rfl
@[simp] theorem State.push_tStart (a : Word) : (s.push a).tStart = s.tStart := rfl
@[simp] theorem State.push_tInit (a : Word) : (s.push a).tInit = s.tInit := rfl
@[simp] theorem State.push_clock (a : Word) : (s.push a).clock = s.clock := rfl
@[simp] theorem State.push_getV (a : Word) (j : Nibble) : (s.push a).getV j = s.getV j := rfl
@[simp] theorem State.push_memRead (a : Word) (a' : Word) : (s.push a).memRead a' = s.memRead a' := rfl

/-! ### drop -/

@[simp] theorem State.drop_v : (s.drop).v = s.v := rfl
@[simp] theorem State.drop_i : (s.drop).i = s.i := rfl
@[simp] theorem State.drop_pc : (s.drop).pc = s.pc := rfl
@[simp] theorem State.drop_stack : (s.drop).stack = s.stack := rfl
@[simp] theorem State.drop_sp : (s.drop).sp = s.sp - 1#8 := rfl
@[simp] theorem State.drop_rng : (s.drop).rng = s.rng := rfl
@[simp] theorem State.drop_run : (s.drop).run = s.run := rfl
@[simp] theorem State.drop_mem : (s.drop).mem = s.mem := rfl
@[simp] theorem State.drop_fb : (s.drop).fb = s.fb := rfl
@[simp] theorem State.drop_key : (s.drop).key = s.key := rfl
@[simp] theorem State.drop_tStart : (s.drop).tStart = s.tStart := rfl
@[simp] theorem State.drop_tInit : (s.drop).tInit = s.tInit := rfl
@[simp] theorem State.drop_clock : (s.drop).clock = s.clock := rfl
@[simp] theorem State.drop_getV (j : Nibble) : (s.drop).getV j = s.getV j := rfl
@[simp] theorem State.drop_memRead (a' : Word) : (s.drop).memRead a' = s.memRead a' := rfl

/-! ### raise -/

@[simp] theorem State.raise_v (c : FaultCause) (w : Word) : (s.raise c w).v = s.v := rfl
@[simp] theorem State.raise_i (c : FaultCause) (w : Word) : (s.raise c w).i = s.i := rfl
@[simp] theorem State.raise_pc (c : FaultCause) (w : Word) : (s.raise c w).pc = s.pc := rfl
@[simp] theorem State.raise_stack (c : FaultCause) (w : Word) : (s.raise c w).stack = s.stack := rfl
@[simp] theorem State.raise_sp (c : FaultCause) (w : Word) : (s.raise c w).sp = s.sp := rfl
@[simp] theorem State.raise_rng (c : FaultCause) (w : Word) : (s.raise c w).rng = s.rng := rfl
@[simp] theorem State.raise_run (c : FaultCause) (w : Word) : (s.raise c w).run = .faulted c s.pc w := rfl
@[simp] theorem State.raise_mem (c : FaultCause) (w : Word) : (s.raise c w).mem = s.mem := rfl
@[simp] theorem State.raise_fb (c : FaultCause) (w : Word) : (s.raise c w).fb = s.fb := rfl
@[simp] theorem State.raise_key (c : FaultCause) (w : Word) : (s.raise c w).key = s.key := rfl
@[simp] theorem State.raise_tStart (c : FaultCause) (w : Word) : (s.raise c w).tStart = s.tStart := rfl
@[simp] theorem State.raise_tInit (c : FaultCause) (w : Word) : (s.raise c w).tInit = s.tInit := rfl
@[simp] theorem State.raise_clock (c : FaultCause) (w : Word) : (s.raise c w).clock = s.clock := rfl
@[simp] theorem State.raise_getV (c : FaultCause) (w : Word) (j : Nibble) : (s.raise c w).getV j = s.getV j := rfl
@[simp] theorem State.raise_memRead (c : FaultCause) (w : Word) (a' : Word) : (s.raise c w).memRead a' = s.memRead a' := rfl

/-! ### timerSet -/

@[simp] theorem State.timerSet_v (b : Byte) : (s.timerSet b).v = s.v := rfl
@[simp] theorem State.timerSet_i (b : Byte) : (s.timerSet b).i = s.i := rfl
@[simp] theorem State.timerSet_pc (b : Byte) : (s.timerSet b).pc = s.pc := rfl
@[simp] theorem State.timerSet_stack (b : Byte) : (s.timerSet b).stack = s.stack := rfl
@[simp] theorem State.timerSet_sp (b : Byte) : (s.timerSet b).sp = s.sp := rfl
@[simp] theorem State.timerSet_rng (b : Byte) : (s.timerSet b).rng = s.rng := rfl
@[simp] theorem State.timerSet_run (b : Byte) : (s.timerSet b).run = s.run := rfl
@[simp] theorem State.timerSet_mem (b : Byte) : (s.timerSet b).mem = s.mem := rfl
@[simp] theorem State.timerSet_fb (b : Byte) : (s.timerSet b).fb = s.fb := rfl
@[simp] theorem State.timerSet_key (b : Byte) : (s.timerSet b).key = s.key := rfl
@[simp] theorem State.timerSet_tStart (b : Byte) : (s.timerSet b).tStart = s.clock.now.1 := rfl
@[simp] theorem State.timerSet_tInit (b : Byte) : (s.timerSet b).tInit = b := rfl
@[simp] theorem State.timerSet_clock (b : Byte) : (s.timerSet b).clock = s.clock.now.2 := rfl
@[simp] theorem State.timerSet_getV (b : Byte) (j : Nibble) : (s.timerSet b).getV j = s.getV j := rfl
@[simp] theorem State.timerSet_memRead (b : Byte) (a' : Word) : (s.timerSet b).memRead a' = s.memRead a' := rfl

/-! ### readClock -/

@[simp] theorem State.readClock_v : (s.readClock).v = s.v := rfl
@[simp] theorem State.readClock_i : (s.readClock).i = s.i := rfl
@[simp] theorem State.readClock_pc : (s.readClock).pc = s.pc := rfl
@[simp] theorem State.readClock_stack : (s.readClock).stack = s.stack := rfl
@[simp] theorem State.readClock_sp : (s.readClock).sp = s.sp := rfl
@[simp] theorem State.readClock_rng : (s.readClock).rng = s.rng := rfl
@[simp] theorem State.readClock_run : (s.readClock).run = s.run := rfl
@[simp] theorem State.readClock_mem : (s.readClock).mem = s.mem := rfl
@[simp] theorem State.readClock_fb : (s.readClock).fb = s.fb := rfl
@[simp] theorem State.readClock_key : (s.readClock).key = s.key := rfl
@[simp] theorem State.readClock_tStart : (s.readClock).tStart = s.tStart := rfl
@[simp] theorem State.readClock_tInit : (s.readClock).tInit = s.tInit := rfl
@[simp] theorem State.readClock_clock : (s.readClock).clock = s.clock.now.2 := rfl
@[simp] theorem State.readClock_getV (j : Nibble) : (s.readClock).getV j = s.getV j := rfl
@[simp] theorem State.readClock_memRead (a' : Word) : (s.readClock).memRead a' = s.memRead a' := rfl

/-! ### drawByte -/

@[simp] theorem State.drawByte_v : (s.drawByte).v = s.v := rfl
@[simp] theorem State.drawByte_i : (s.drawByte).i = s.i := rfl
@[simp] theorem State.drawByte_pc : (s.drawByte).pc = s.pc := rfl
@[simp] theorem State.drawByte_stack : (s.drawByte).stack = s.stack := rfl
@[simp] theorem State.drawByte_sp : (s.drawByte).sp = s.sp := rfl
@[simp] theorem State.drawByte_rng : (s.drawByte).rng = s.rng.draw.2 := rfl
@[simp] theorem State.drawByte_run : (s.drawByte).run = s.run := rfl
@[simp] theorem State.drawByte_mem : (s.drawByte).mem = s.mem := rfl
@[simp] theorem State.drawByte_fb : (s.drawByte).fb = s.fb := rfl
@[simp] theorem State.drawByte_key : (s.drawByte).key = s.key := rfl
@[simp] theorem State.drawByte_tStart : (s.drawByte).tStart = s.tStart := rfl
@[simp] theorem State.drawByte_tInit : (s.drawByte).tInit = s.tInit := rfl
@[simp] theorem State.drawByte_clock : (s.drawByte).clock = s.clock := rfl
@[simp] theorem State.drawByte_getV (j : Nibble) : (s.drawByte).getV j = s.getV j := rfl
@[simp] theorem State.drawByte_memRead (a' : Word) : (s.drawByte).memRead a' = s.memRead a' := rfl

/-! ### setResultThenFlag -/

@[simp] theorem State.setResultThenFlag_i (x : Nibble) (r : Byte) (f : Bool) : (s.setResultThenFlag x r f).i = s.i := rfl
@[simp] theorem State.setResultThenFlag_pc (x : Nibble) (r : Byte) (f : Bool) : (s.setResultThenFlag x r f).pc = s.pc := rfl
@[simp] theorem State.setResultThenFlag_stack (x : Nibble) (r : Byte) (f : Bool) : (s.setResultThenFlag x r f).stack = s.stack := rfl
@[simp] theorem State.setResultThenFlag_sp (x : Nibble) (r : Byte) (f : Bool) : (s.setResultThenFlag x r f).sp = s.sp := rfl
@[simp] theorem State.setResultThenFlag_rng (x : Nibble) (r : Byte) (f : Bool) : (s.setResultThenFlag x r f).rng = s.rng := rfl
@[simp] theorem State.setResultThenFlag_run (x : Nibble) (r : Byte) (f : Bool) : (s.setResultThenFlag x r f).run = s.run := rfl
@[simp] theorem State.setResultThenFlag_mem (x : Nibble) (r : Byte) (f : Bool) : (s.setResultThenFlag x r f).mem = s.mem := rfl
@[simp] theorem State.setResultThenFlag_fb (x : Nibble) (r : Byte) (f : Bool) : (s.setResultThenFlag x r f).fb = s.fb := rfl
@[simp] theorem State.setResultThenFlag_key (x : Nibble) (r : Byte) (f : Bool) : (s.setResultThenFlag x r f).key = s.key := rfl
@[simp] theorem State.setResultThenFlag_tStart (x : Nibble) (r : Byte) (f : Bool) : (s.setResultThenFlag x r f).tStart = s.tStart := rfl
@[simp] theorem State.setResultThenFlag_tInit (x : Nibble) (r : Byte) (f : Bool) : (s.setResultThenFlag x r f).tInit = s.tInit := rfl
@[simp] theorem State.setResultThenFlag_clock (x : Nibble) (r : Byte) (f : Bool) : (s.setResultThenFlag x r f).clock = s.clock := rfl
@[simp] theorem State.setResultThenFlag_memRead (x : Nibble) (r : Byte) (f : Bool) (a' : Word) : (s.setResultThenFlag x r f).memRead a' = s.memRead a' := rfl

/-! ### setFlagThenShift -/

@[simp] theorem State.setFlagThenShift_i (n x : Nibble) (r : Byte) (f : Bool) : (s.setFlagThenShift n x r f).i = s.i := rfl
@[simp] theorem State.setFlagThenShift_pc (n x : Nibble) (r : Byte) (f : Bool) : (s.setFlagThenShift n x r f).pc = s.pc := rfl
@[simp] theorem State.setFlagThenShift_stack (n x : Nibble) (r : Byte) (f : Bool) : (s.setFlagThenShift n x r f).stack = s.stack := rfl
@[simp] theorem State.setFlagThenShift_sp (n x : Nibble) (r : Byte) (f : Bool) : (s.setFlagThenShift n x r f).sp = s.sp := rfl
@[simp] theorem State.setFlagThenShift_rng (n x : Nibble) (r : Byte) (f : Bool) : (s.setFlagThenShift n x r f).rng = s.rng := rfl
@[simp] theorem State.setFlagThenShift_run (n x : Nibble) (r : Byte) (f : Bool) : (s.setFlagThenShift n x r f).run = s.run := rfl
@[simp] theorem State.setFlagThenShift_mem (n x : Nibble) (r : Byte) (f : Bool) : (s.setFlagThenShift n x r f).mem = s.mem := rfl
@[simp] theorem State.setFlagThenShift_fb (n x : Nibble) (r : Byte) (f : Bool) : (s.setFlagThenShift n x r f).fb = s.fb := rfl
@[simp] theorem State.setFlagThenShift_key (n x : Nibble) (r : Byte) (f : Bool) : (s.setFlagThenShift n x r f).key = s.key := rfl
@[simp] theorem State.setFlagThenShift_tStart (n x : Nibble) (r : Byte) (f : Bool) : (s.setFlagThenShift n x r f).tStart = s.tStart := rfl
@[simp] theorem State.setFlagThenShift_tInit (n x : Nibble) (r : Byte) (f : Bool) : (s.setFlagThenShift n x r f).tInit = s.tInit := rfl
@[simp] theorem State.setFlagThenShift_clock (n x : Nibble) (r : Byte) (f : Bool) : (s.setFlagThenShift n x r f).clock = s.clock := rfl
@[simp] theorem State.setFlagThenShift_memRead (n x : Nibble) (r : Byte) (f : Bool) (a' : Word) : (s.setFlagThenShift n x r f).memRead a' = s.memRead a' := rfl

/-! ### A new framebuffer -/

@[simp] theorem State.withFb_getV (fb : FrameBuffer) (j : Nibble) : State.getV { s with fb := fb } j = s.getV j := rfl
@[simp] theorem State.withFb_memRead (fb : FrameBuffer) (a : Word) : State.memRead { s with fb := fb } a = s.memRead a := rfl

/-! ### Registers -/

@[simp] theorem State.getV_setV (x : Nibble) (b : Byte) (j : Nibble) :
    (s.setV x b).getV j = if j = x then b else s.getV j := by
  unfold State.getV State.setV
  simp only [Vector.getElem_set]
  by_cases h : j = x
  · simp [h]
  · have : ¬ x.toNat = j.toNat := fun e => h (BitVec.eq_of_toNat_eq e.symm)
    simp [h, this]

/-- The flag wins where the result register is VF. -/
@[simp] theorem State.getV_setResultThenFlag (x : Nibble) (r : Byte) (f : Bool) (j : Nibble) :
    (s.setResultThenFlag x r f).getV j = if j = vf then flagByte f else if j = x then r else s.getV j := by
  simp [State.setResultThenFlag]

/-- The shifted value wins where the result register is VF. -/
@[simp] theorem State.getV_setFlagThenShift (n x : Nibble) (r : Byte) (f : Bool) (j : Nibble) :
    (s.setFlagThenShift n x r f).getV j =
      if j = x then (if x = vf then vfShiftSelf n (s.getV x) else r) else if j = vf then flagByte f else s.getV j := by
  simp [State.setFlagThenShift]

/-! ### Registers stored and loaded in a row -/

@[simp] theorem State.storeRegs_v (a : Word) (n : Nat) : (s.storeRegs a n).v = s.v := by
  induction n with
  | zero => rfl
  | succ k ih => simpa [State.storeRegs] using ih
@[simp] theorem State.storeRegs_i (a : Word) (n : Nat) : (s.storeRegs a n).i = s.i := by
  induction n with
  | zero => rfl
  | succ k ih => simpa [State.storeRegs] using ih
@[simp] theorem State.storeRegs_pc (a : Word) (n : Nat) : (s.storeRegs a n).pc = s.pc := by
  induction n with
  | zero => rfl
  | succ k ih => simpa [State.storeRegs] using ih
@[simp] theorem State.storeRegs_stack (a : Word) (n : Nat) : (s.storeRegs a n).stack = s.stack := by
  induction n with
  | zero => rfl
  | succ k ih => simpa [State.storeRegs] using ih
@[simp] theorem State.storeRegs_sp (a : Word) (n : Nat) : (s.storeRegs a n).sp = s.sp := by
  induction n with
  | zero => rfl
  | succ k ih => simpa [State.storeRegs] using ih
@[simp] theorem State.storeRegs_rng (a : Word) (n : Nat) : (s.storeRegs a n).rng = s.rng := by
  induction n with
  | zero => rfl
  | succ k ih => simpa [State.storeRegs] using ih
@[simp] theorem State.storeRegs_run (a : Word) (n : Nat) : (s.storeRegs a n).run = s.run := by
  induction n with
  | zero => rfl
  | succ k ih => simpa [State.storeRegs] using ih
@[simp] theorem State.storeRegs_fb (a : Word) (n : Nat) : (s.storeRegs a n).fb = s.fb := by
  induction n with
  | zero => rfl
  | succ k ih => simpa [State.storeRegs] using ih
@[simp] theorem State.storeRegs_key (a : Word) (n : Nat) : (s.storeRegs a n).key = s.key := by
  induction n with
  | zero => rfl
  | succ k ih => simpa [State.storeRegs] using ih
@[simp] theorem State.storeRegs_tStart (a : Word) (n : Nat) : (s.storeRegs a n).tStart = s.tStart := by
  induction n with
  | zero => rfl
  | succ k ih => simpa [State.storeRegs] using ih
@[simp] theorem State.storeRegs_tInit (a : Word) (n : Nat) : (s.storeRegs a n).tInit = s.tInit := by
  induction n with
  | zero => rfl
  | succ k ih => simpa [State.storeRegs] using ih
@[simp] theorem State.storeRegs_clock (a : Word) (n : Nat) : (s.storeRegs a n).clock = s.clock := by
  induction n with
  | zero => rfl
  | succ k ih => simpa [State.storeRegs] using ih
@[simp] theorem State.storeRegs_getV (a : Word) (n : Nat) (j : Nibble) : (s.storeRegs a n).getV j = s.getV j := by
  simp [State.getV]
@[simp] theorem State.loadRegs_i (a : Word) (n : Nat) : (s.loadRegs a n).i = s.i := by
  induction n with
  | zero => rfl
  | succ k ih => simpa [State.loadRegs] using ih
@[simp] theorem State.loadRegs_pc (a : Word) (n : Nat) : (s.loadRegs a n).pc = s.pc := by
  induction n with
  | zero => rfl
  | succ k ih => simpa [State.loadRegs] using ih
@[simp] theorem State.loadRegs_stack (a : Word) (n : Nat) : (s.loadRegs a n).stack = s.stack := by
  induction n with
  | zero => rfl
  | succ k ih => simpa [State.loadRegs] using ih
@[simp] theorem State.loadRegs_sp (a : Word) (n : Nat) : (s.loadRegs a n).sp = s.sp := by
  induction n with
  | zero => rfl
  | succ k ih => simpa [State.loadRegs] using ih
@[simp] theorem State.loadRegs_rng (a : Word) (n : Nat) : (s.loadRegs a n).rng = s.rng := by
  induction n with
  | zero => rfl
  | succ k ih => simpa [State.loadRegs] using ih
@[simp] theorem State.loadRegs_run (a : Word) (n : Nat) : (s.loadRegs a n).run = s.run := by
  induction n with
  | zero => rfl
  | succ k ih => simpa [State.loadRegs] using ih
@[simp] theorem State.loadRegs_mem (a : Word) (n : Nat) : (s.loadRegs a n).mem = s.mem := by
  induction n with
  | zero => rfl
  | succ k ih => simpa [State.loadRegs] using ih
@[simp] theorem State.loadRegs_fb (a : Word) (n : Nat) : (s.loadRegs a n).fb = s.fb := by
  induction n with
  | zero => rfl
  | succ k ih => simpa [State.loadRegs] using ih
@[simp] theorem State.loadRegs_key (a : Word) (n : Nat) : (s.loadRegs a n).key = s.key := by
  induction n with
  | zero => rfl
  | succ k ih => simpa [State.loadRegs] using ih
@[simp] theorem State.loadRegs_tStart (a : Word) (n : Nat) : (s.loadRegs a n).tStart = s.tStart := by
  induction n with
  | zero => rfl
  | succ k ih => simpa [State.loadRegs] using ih
@[simp] theorem State.loadRegs_tInit (a : Word) (n : Nat) : (s.loadRegs a n).tInit = s.tInit := by
  induction n with
  | zero => rfl
  | succ k ih => simpa [State.loadRegs] using ih
@[simp] theorem State.loadRegs_clock (a : Word) (n : Nat) : (s.loadRegs a n).clock = s.clock := by
  induction n with
  | zero => rfl
  | succ k ih => simpa [State.loadRegs] using ih
@[simp] theorem State.loadRegs_memRead (a : Word) (n : Nat) (a' : Word) : (s.loadRegs a n).memRead a' = s.memRead a' := by
  simp [State.memRead]

/-! ### Bytes written in a row -/

@[simp] theorem State.memWriteAll_v (a : Word) (l : List Byte) : (s.memWriteAll a l).v = s.v := by
  induction l generalizing s a with
  | nil => rfl
  | cons b rest ih => exact ih (s.memWrite a b) (a + 1#16)
@[simp] theorem State.memWriteAll_i (a : Word) (l : List Byte) : (s.memWriteAll a l).i = s.i := by
  induction l generalizing s a with
  | nil => rfl
  | cons b rest ih => exact ih (s.memWrite a b) (a + 1#16)
@[simp] theorem State.memWriteAll_pc (a : Word) (l : List Byte) : (s.memWriteAll a l).pc = s.pc := by
  induction l generalizing s a with
  | nil => rfl
  | cons b rest ih => exact ih (s.memWrite a b) (a + 1#16)
@[simp] theorem State.memWriteAll_stack (a : Word) (l : List Byte) : (s.memWriteAll a l).stack = s.stack := by
  induction l generalizing s a with
  | nil => rfl
  | cons b rest ih => exact ih (s.memWrite a b) (a + 1#16)
@[simp] theorem State.memWriteAll_sp (a : Word) (l : List Byte) : (s.memWriteAll a l).sp = s.sp := by
  induction l generalizing s a with
  | nil => rfl
  | cons b rest ih => exact ih (s.memWrite a b) (a + 1#16)
@[simp] theorem State.memWriteAll_rng (a : Word) (l : List Byte) : (s.memWriteAll a l).rng = s.rng := by
  induction l generalizing s a with
  | nil => rfl
  | cons b rest ih => exact ih (s.memWrite a b) (a + 1#16)
@[simp] theorem State.memWriteAll_run (a : Word) (l : List Byte) : (s.memWriteAll a l).run = s.run := by
  induction l generalizing s a with
  | nil => rfl
  | cons b rest ih => exact ih (s.memWrite a b) (a + 1#16)
@[simp] theorem State.memWriteAll_fb (a : Word) (l : List Byte) : (s.memWriteAll a l).fb = s.fb := by
  induction l generalizing s a with
  | nil => rfl
  | cons b rest ih => exact ih (s.memWrite a b) (a + 1#16)
@[simp] theorem State.memWriteAll_key (a : Word) (l : List Byte) : (s.memWriteAll a l).key = s.key := by
  induction l generalizing s a with
  | nil => rfl
  | cons b rest ih => exact ih (s.memWrite a b) (a + 1#16)
@[simp] theorem State.memWriteAll_tStart (a : Word) (l : List Byte) : (s.memWriteAll a l).tStart = s.tStart := by
  induction l generalizing s a with
  | nil => rfl
  | cons b rest ih => exact ih (s.memWrite a b) (a + 1#16)
@[simp] theorem State.memWriteAll_tInit (a : Word) (l : List Byte) : (s.memWriteAll a l).tInit = s.tInit := by
  induction l generalizing s a with
  | nil => rfl
  | cons b rest ih => exact ih (s.memWrite a b) (a + 1#16)
@[simp] theorem State.memWriteAll_clock (a : Word) (l : List Byte) : (s.memWriteAll a l).clock = s.clock := by
  induction l generalizing s a with
  | nil => rfl
  | cons b rest ih => exact ih (s.memWrite a b) (a + 1#16)
@[simp] theorem State.memWriteAll_getV (a : Word) (l : List Byte) (j : Nibble) : (s.memWriteAll a l).getV j = s.getV j := by
  simp [State.getV]

end Sys2Proof.Machine
end

