-- ==== Sys2Proof/Laws/Framebuffer.lean ====
section
/-! SUPPORT. What the XOR-blit engine does to each cell, and when it reports a collision (43_draw.md R150–R152). -/

namespace Sys2Proof.Machine

@[simp] theorem FrameBuffer.cell_clear (fb : FrameBuffer) (r : BitVec 5) (c : BitVec 6) :
    fb.clear.cell r c = false := by
  simp [FrameBuffer.clear, FrameBuffer.cell]

theorem FrameBuffer.cell_setCell (fb : FrameBuffer) (r : BitVec 5) (c : BitVec 6) (b : Bool) (r' : BitVec 5)
    (c' : BitVec 6) :
    (fb.setCell r c b).cell r' c' = if r' = r ∧ c' = c then b else fb.cell r' c' := by
  unfold FrameBuffer.cell FrameBuffer.setCell
  simp only [Vector.getElem_set]
  by_cases hr : r' = r
  · subst hr
    by_cases hc : c' = c
    · simp [hc]
    · have : ¬ c.toNat = c'.toNat := fun e => hc (BitVec.eq_of_toNat_eq e.symm)
      simp [hc, this]
  · have : ¬ r.toNat = r'.toNat := fun e => hr (BitVec.eq_of_toNat_eq e.symm)
    simp [hr, this]

/-- Two framebuffers with equal cells are equal. -/
theorem FrameBuffer.ext_cell {f g : FrameBuffer} (h : ∀ r c, FrameBuffer.cell f r c = FrameBuffer.cell g r c) : f = g := by
  apply Vector.ext
  intro i hi
  apply Vector.ext
  intro j hj
  have := h (BitVec.ofNat 5 i) (BitVec.ofNat 6 j)
  simpa [FrameBuffer.cell, Nat.mod_eq_of_lt hi, Nat.mod_eq_of_lt hj] using this

/-- Whether the pixel of byte `b`, drawn from column `x`, at column `c` is among the first `n` and is 1. -/
def rowPixel (b x : Byte) (n : Nat) (c : BitVec 6) : Bool :=
  decide ((c - x.setWidth 6).toNat < n) && b.getLsbD (7 - (c - x.setWidth 6).toNat)

theorem column_eq_iff (x : Byte) (k : Nat) (hk : k < 64) (c : BitVec 6) :
    c = BitVec.ofNat 6 (x.toNat + k) ↔ (c - x.setWidth 6).toNat = k := by
  rw [← BitVec.toNat_inj]
  simp only [BitVec.toNat_ofNat, BitVec.toNat_sub, BitVec.toNat_setWidth]
  have := c.isLt
  have := x.isLt
  omega

theorem row_eq_iff (y : Byte) (k : Nat) (hk : k < 32) (r : BitVec 5) :
    r = BitVec.ofNat 5 (y.toNat + k) ↔ (r - y.setWidth 5).toNat = k := by
  rw [← BitVec.toNat_inj]
  simp only [BitVec.toNat_ofNat, BitVec.toNat_sub, BitVec.toNat_setWidth]
  have := r.isLt
  have := y.isLt
  omega

theorem rowPixel_succ (b x : Byte) (n : Nat) (hn : n < 64) (c : BitVec 6) :
    rowPixel b x (n + 1) c = if c = BitVec.ofNat 6 (x.toNat + n) then b.getLsbD (7 - n) else rowPixel b x n c := by
  unfold rowPixel
  simp only [column_eq_iff x n hn]
  generalize (c - x.setWidth 6).toNat = k
  by_cases h : k = n
  · simp [h]
  · have e : k < n + 1 ↔ k < n := by omega
    simp only [h, e, if_false]

/-- The first `n` pixels of a blit XOR the byte's pixels into the row and leave every other cell. -/
theorem FrameBuffer.cell_blitPixels (fb : FrameBuffer) (b x : Byte) (row : BitVec 5) (n : Nat) (hn : n ≤ 64)
    (r : BitVec 5) (c : BitVec 6) :
    (fb.blitPixels b x row n).1.cell r c = Bool.xor (fb.cell r c) (decide (r = row) && rowPixel b x n c) := by
  induction n with
  | zero => simp [FrameBuffer.blitPixels, rowPixel]
  | succ k ih =>
    have ih := ih (by omega)
    simp only [FrameBuffer.blitPixels, FrameBuffer.blitPixel, FrameBuffer.cell_setCell]
    by_cases hr : r = row
    · subst hr
      rw [rowPixel_succ b x k (by omega)]
      by_cases hc : c = BitVec.ofNat 6 (x.toNat + k)
      · have h0 : rowPixel b x k c = false := by
          rw [column_eq_iff x k (by omega)] at hc
          simp [rowPixel, hc]
        subst hc
        simp [ih, h0]
      · simp [hc, ih]
    · simp [hr, ih]

/-- The first `n` pixels of a blit report a collision exactly when one of the byte's 1 pixels lies on a lit cell. -/
theorem FrameBuffer.hit_blitPixels (fb : FrameBuffer) (b x : Byte) (row : BitVec 5) (n : Nat) (hn : n ≤ 64) :
    (fb.blitPixels b x row n).2 = true ↔ ∃ c, fb.cell row c = true ∧ rowPixel b x n c = true := by
  induction n with
  | zero => simp [FrameBuffer.blitPixels, rowPixel]
  | succ k ih =>
    have ih := ih (by omega)
    have hcell := FrameBuffer.cell_blitPixels fb b x row k (by omega) row (BitVec.ofNat 6 (x.toNat + k))
    have h0 : rowPixel b x k (BitVec.ofNat 6 (x.toNat + k)) = false := by
      have := (column_eq_iff x k (by omega) (BitVec.ofNat 6 (x.toNat + k))).mp rfl
      simp [rowPixel, this]
    simp only [FrameBuffer.blitPixels, FrameBuffer.blitPixel, Bool.or_eq_true, ih, hcell, h0]
    constructor
    · rintro (⟨c, hc, hp⟩ | h)
      · refine ⟨c, hc, ?_⟩
        rw [rowPixel_succ b x k (by omega)]
        split
        · rename_i e; subst e; simp [h0] at hp
        · exact hp
      · refine ⟨BitVec.ofNat 6 (x.toNat + k), ?_, ?_⟩
        · simp at h; exact h.1
        · rw [rowPixel_succ b x k (by omega)]; simp at h ⊢; simpa [h.1] using h.2
    · rintro ⟨c, hc, hp⟩
      rw [rowPixel_succ b x k (by omega)] at hp
      split at hp
      · rename_i e; subst e; right; simp [hc, hp]
      · exact Or.inl ⟨c, hc, hp⟩

/-- `FbBlit`, each cell (R151). -/
theorem FrameBuffer.cell_blit (fb : FrameBuffer) (b x : Byte) (row r : BitVec 5) (c : BitVec 6) :
    (fb.blit b x row).1.cell r c = Bool.xor (fb.cell r c) (decide (r = row) && rowPixel b x 8 c) :=
  FrameBuffer.cell_blitPixels fb b x row 8 (by omega) r c

/-- `FbBlit`, the collision bit (R151, C7). -/
theorem FrameBuffer.hit_blit (fb : FrameBuffer) (b x : Byte) (row : BitVec 5) :
    (fb.blit b x row).2 = true ↔ ∃ c, fb.cell row c = true ∧ rowPixel b x 8 c = true :=
  FrameBuffer.hit_blitPixels fb b x row 8 (by omega)

theorem spritePixel_succ (s : State) (i0 : Word) (vx0 vy0 : Byte) (n : Nat) (hn : n < 32) (r : BitVec 5) (c : BitVec 6) :
    spritePixel s i0 vx0 vy0 (n + 1) r c =
      if r = BitVec.ofNat 5 (vy0.toNat + n) then rowPixel (s.memRead (i0 + BitVec.ofNat 16 n)) vx0 8 c
      else spritePixel s i0 vx0 vy0 n r c := by
  unfold spritePixel rowPixel
  simp only [row_eq_iff vy0 n hn]
  generalize (r - vy0.setWidth 5).toNat = k
  by_cases h : k = n
  · simp [h]
  · have e : k < n + 1 ↔ k < n := by omega
    simp only [h, e, if_false]

theorem spritePixel_at_end (s : State) (i0 : Word) (vx0 vy0 : Byte) (n : Nat) (hn : n < 32) (c : BitVec 6) :
    spritePixel s i0 vx0 vy0 n (BitVec.ofNat 5 (vy0.toNat + n)) c = false := by
  have := (row_eq_iff vy0 n hn (BitVec.ofNat 5 (vy0.toNat + n))).mp rfl
  simp [spritePixel, this]

/-- The first `n` rows of DXYN XOR the sprite into the screen and leave every other cell. -/
theorem State.cell_drawRows (s : State) (i0 : Word) (vx0 vy0 : Byte) (n : Nat) (hn : n ≤ 32) (r : BitVec 5)
    (c : BitVec 6) :
    (s.drawRows i0 vx0 vy0 n).1.cell r c = Bool.xor (s.fb.cell r c) (spritePixel s i0 vx0 vy0 n r c) := by
  induction n with
  | zero => simp [State.drawRows, spritePixel]
  | succ k ih =>
    have ih := ih (by omega)
    simp only [State.drawRows, FrameBuffer.cell_blit, ih, spritePixel_succ s i0 vx0 vy0 k (by omega)]
    by_cases hr : r = BitVec.ofNat 5 (vy0.toNat + k)
    · subst hr
      simp [spritePixel_at_end s i0 vx0 vy0 k (by omega)]
    · simp [hr]

/-- The first `n` rows of DXYN report a collision exactly when a 1 of the sprite lies on a lit cell. -/
theorem State.hit_drawRows (s : State) (i0 : Word) (vx0 vy0 : Byte) (n : Nat) (hn : n ≤ 32) :
    (s.drawRows i0 vx0 vy0 n).2 = true ↔
      ∃ r c, s.fb.cell r c = true ∧ spritePixel s i0 vx0 vy0 n r c = true := by
  induction n with
  | zero => simp [State.drawRows, spritePixel]
  | succ k ih =>
    have ih := ih (by omega)
    simp only [State.drawRows, Bool.or_eq_true, ih, FrameBuffer.hit_blit,
      State.cell_drawRows s i0 vx0 vy0 k (by omega), spritePixel_at_end s i0 vx0 vy0 k (by omega), Bool.xor_false]
    constructor
    · rintro (⟨r, c, hc, hp⟩ | ⟨c, hc, hp⟩)
      · refine ⟨r, c, hc, ?_⟩
        rw [spritePixel_succ s i0 vx0 vy0 k (by omega)]
        split
        · rename_i e; subst e; simp [spritePixel_at_end s i0 vx0 vy0 k (by omega)] at hp
        · exact hp
      · exact ⟨_, c, hc, by rw [spritePixel_succ s i0 vx0 vy0 k (by omega)]; simpa using hp⟩
    · rintro ⟨r, c, hc, hp⟩
      rw [spritePixel_succ s i0 vx0 vy0 k (by omega)] at hp
      split at hp
      · rename_i e; subst e; exact Or.inr ⟨c, hc, hp⟩
      · exact Or.inl ⟨r, c, hc, hp⟩

end Sys2Proof.Machine
end

