-- ==== Sys2Proof/Laws/Memory.lean ====
section
/-! SUPPORT. The laws of the memory list: a read after a write, and that writing keeps the canonical form. -/

namespace Sys2Proof.Machine

@[simp] theorem Memory.read_nil (a : Nat) : Memory.read [] a = Memory.resetByte a := rfl

theorem Memory.read_cons (c : Host.Cell) (m : Memory) (a : Nat) :
    Memory.read (c :: m) a = if c.1 = a then c.2 else Memory.read m a := rfl

theorem Memory.read_forget (m : Memory) (a a' : Nat) :
    (m.forget a).read a' = if a' = a then Memory.resetByte a else m.read a' := by
  induction m with
  | nil => by_cases h : a' = a <;> simp [Memory.forget, h]
  | cons c rest ih =>
    by_cases hc : c.1 = a
    · have : Memory.forget (c :: rest) a = Memory.forget rest a := by simp [Memory.forget, hc]
      rw [this, ih, Memory.read_cons]
      by_cases h : a' = a
      · simp [h]
      · have : ¬ c.1 = a' := fun e => h (e.symm.trans hc)
        simp [h, this]
    · have : Memory.forget (c :: rest) a = c :: Memory.forget rest a := by simp [Memory.forget, hc]
      rw [this, Memory.read_cons, ih, Memory.read_cons]
      by_cases h : a' = a
      · simp [h, hc]
      · simp [h]

theorem Memory.forget_keys (m : Memory) (a : Nat) : ∀ c ∈ m.forget a, c.1 ≠ a := by
  intro c hc
  simpa using (List.mem_filter.mp hc).2

theorem Memory.read_place (m : Memory) (a : Nat) (b : Byte) (a' : Nat) (h : ∀ c ∈ m, c.1 ≠ a) :
    (m.place a b).read a' = if a' = a then b else m.read a' := by
  induction m with
  | nil => simp [Memory.place, Memory.read_cons, eq_comm]
  | cons c rest ih =>
    obtain ⟨k, v⟩ := c
    have hk : k ≠ a := h (k, v) (by simp)
    have hrest := ih (fun c hc => h c (by simp [hc]))
    unfold Memory.place
    split
    · rw [Memory.read_cons]
      simp only [eq_comm (a := a')]
    · rw [Memory.read_cons, hrest, Memory.read_cons]
      by_cases e : a' = a
      · subst e; simp [hk]
      · simp [e]

/-- A read after a write: the byte written at that address, and the byte there before at every other. -/
theorem Memory.read_write (m : Memory) (a : Nat) (b : Byte) (a' : Nat) :
    (m.write a b).read a' = if a' = a then b else m.read a' := by
  unfold Memory.write
  split
  · rename_i hb
    rw [Memory.read_forget, hb]
  · rw [Memory.read_place _ _ _ _ (Memory.forget_keys m a), Memory.read_forget]
    by_cases e : a' = a <;> simp [e]

theorem Memory.wfFrom_mono {lo lo' : Nat} {m : Memory} (h : Memory.wfFrom lo m = true) (hl : lo' ≤ lo) :
    Memory.wfFrom lo' m = true := by
  cases m with
  | nil => rfl
  | cons c rest =>
    simp only [Memory.wfFrom, Bool.and_eq_true, decide_eq_true_eq] at h ⊢
    exact ⟨⟨⟨by omega, h.1.1.2⟩, h.1.2⟩, h.2⟩

theorem Memory.wfFrom_forget {lo : Nat} {m : Memory} (a : Nat) (h : Memory.wfFrom lo m = true) :
    Memory.wfFrom lo (m.forget a) = true := by
  induction m generalizing lo with
  | nil => rfl
  | cons c rest ih =>
    obtain ⟨k, v⟩ := c
    simp only [Memory.wfFrom, Bool.and_eq_true, decide_eq_true_eq] at h
    by_cases hk : k = a
    · have : Memory.forget ((k, v) :: rest) a = Memory.forget rest a := by simp [Memory.forget, hk]
      rw [this]
      exact Memory.wfFrom_mono (ih h.2) (by omega)
    · have : Memory.forget ((k, v) :: rest) a = (k, v) :: Memory.forget rest a := by simp [Memory.forget, hk]
      rw [this]
      simp only [Memory.wfFrom, Bool.and_eq_true, decide_eq_true_eq]
      exact ⟨h.1, ih h.2⟩

theorem Memory.wfFrom_place {lo : Nat} {m : Memory} {a : Nat} {b : Byte} (h : Memory.wfFrom lo m = true)
    (hk : ∀ c ∈ m, c.1 ≠ a) (hlo : lo ≤ a) (ha : a < 4096) (hb : b ≠ Memory.resetByte a) :
    Memory.wfFrom lo (m.place a b) = true := by
  induction m generalizing lo with
  | nil => simp [Memory.place, Memory.wfFrom, hlo, ha, hb]
  | cons c rest ih =>
    obtain ⟨k, v⟩ := c
    have hne : k ≠ a := hk (k, v) (by simp)
    simp only [Memory.wfFrom, Bool.and_eq_true, decide_eq_true_eq] at h
    unfold Memory.place
    split
    · simp only [Memory.wfFrom, Bool.and_eq_true, decide_eq_true_eq]
      exact ⟨⟨⟨hlo, ha⟩, hb⟩, ⟨⟨by omega, h.1.1.2⟩, h.1.2⟩, h.2⟩
    · simp only [Memory.wfFrom, Bool.and_eq_true, decide_eq_true_eq]
      exact ⟨h.1, ih h.2 (fun c hc => hk c (by simp [hc])) (by omega)⟩

/-- Writing a byte below 4096 keeps the canonical form. -/
theorem Memory.wf_write {m : Memory} {a : Nat} (b : Byte) (h : m.wf = true) (ha : a < 4096) :
    (m.write a b).wf = true := by
  unfold Memory.write Memory.wf at *
  split
  · exact Memory.wfFrom_forget a h
  · rename_i hb
    exact Memory.wfFrom_place (Memory.wfFrom_forget a h) (Memory.forget_keys m a) (Nat.zero_le a) ha hb

theorem Memory.wf_nil : Memory.wf [] = true := rfl

theorem maskAddr_lt (a : Word) : maskAddr a < 4096 := by
  unfold maskAddr
  rw [BitVec.toNat_and]
  exact Nat.lt_of_le_of_lt Nat.and_le_right (by decide)

theorem maskAddr_eq_mod (a : Word) : maskAddr a = a.toNat % 4096 := by
  unfold maskAddr
  rw [BitVec.toNat_and]
  exact Nat.and_two_pow_sub_one_eq_mod a.toNat 12

/-- A memory write of the machine keeps the canonical form. -/
theorem State.memWrite_wf {s : State} (a : Word) (b : Byte) (h : s.mem.wf = true) :
    (s.memWrite a b).mem.wf = true := Memory.wf_write b h (maskAddr_lt a)

/-- A machine read after a machine write: addresses that mask to the same byte see the byte written. -/
theorem State.memRead_memWrite (s : State) (a : Word) (b : Byte) (a' : Word) :
    (s.memWrite a b).memRead a' = if maskAddr a' = maskAddr a then b else s.memRead a' :=
  Memory.read_write s.mem (maskAddr a) b (maskAddr a')

theorem State.memWriteAll_wf {s : State} (a : Word) (bs : List Byte) (h : s.mem.wf = true) :
    (s.memWriteAll a bs).mem.wf = true := by
  induction bs generalizing s a with
  | nil => exact h
  | cons b rest ih => exact ih (a + 1#16) (State.memWrite_wf a b h)

theorem State.placeWord_wf {s : State} (w : Word) (h : s.mem.wf = true) : (s.placeWord w).mem.wf = true :=
  State.memWrite_wf (s := s.memWrite s.pc _) _ _ (State.memWrite_wf _ _ h)

theorem State.storeRegs_wf {s : State} (a : Word) (n : Nat) (h : s.mem.wf = true) :
    (s.storeRegs a n).mem.wf = true := by
  induction n with
  | zero => exact h
  | succ k ih => exact State.memWrite_wf _ _ ih

end Sys2Proof.Machine
end

