-- ==== Sys2Proof/Laws/Ops.lean ====
section
/-! SUPPORT. What each shared operation does, once: registers stored and loaded in a row, the clock, the timer, the key
latch, the random source and the call stack. -/

namespace Sys2Proof.Machine

/-! ### Addresses -/

theorem maskAddr_eq_iff (a b : Word) (k : Nat) (hk : k < 4096) :
    maskAddr b = maskAddr (a + BitVec.ofNat 16 k) ↔ (b - a).toNat % 4096 = k := by
  simp only [maskAddr_eq_mod, BitVec.toNat_add, BitVec.toNat_sub, BitVec.toNat_ofNat]
  have := a.isLt
  have := b.isLt
  omega

/-! ### Registers stored and loaded in a row -/

/-- After the first `n` stores from `a` on, the byte at offset `k < n` is `V[k]`, and every other byte is as before. -/
theorem State.memRead_storeRegs (s : State) (a : Word) (n : Nat) (hn : n ≤ 16) (b : Word) :
    (s.storeRegs a n).memRead b =
      if (b - a).toNat % 4096 < n then s.getV (BitVec.ofNat 4 ((b - a).toNat % 4096)) else s.memRead b := by
  induction n with
  | zero => simp [State.storeRegs]
  | succ k ih =>
    rw [State.storeRegs, State.memRead_memWrite, ih (by omega)]
    simp only [maskAddr_eq_iff a b k (by omega)]
    generalize (b - a).toNat % 4096 = m
    by_cases h : m = k
    · simp [h]
    · have e : m < k + 1 ↔ m < k := by omega
      simp only [h, e, if_false]

/-- After the first `n` loads from `a` on, `V[j]` for `j < n` is the byte at `a + j`, and every other register is as
before. -/
theorem State.getV_loadRegs (s : State) (a : Word) (n : Nat) (hn : n ≤ 16) (j : Nibble) :
    (s.loadRegs a n).getV j = if j.toNat < n then s.memRead (a + BitVec.ofNat 16 j.toNat) else s.getV j := by
  induction n with
  | zero => simp [State.loadRegs]
  | succ k ih =>
    rw [State.loadRegs, State.getV_setV, ih (by omega)]
    have hj : j = BitVec.ofNat 4 k ↔ j.toNat = k := by
      rw [← BitVec.toNat_inj, BitVec.toNat_ofNat]
      have := j.isLt
      omega
    simp only [hj]
    by_cases h : j.toNat = k
    · simp [h]
    · have e : j.toNat < k + 1 ↔ j.toNat < k := by omega
      simp only [h, e, if_false]

/-! ### Clock, timer, random source -/

/-- The reading is the clock's latest reading from then on. -/
@[simp] theorem Clock.now_last (k : Clock) : k.now.2.last = k.now.1 := by
  unfold Clock.now; split <;> rfl

/-- A reading is never earlier than the one before (45_fx.md R182). -/
theorem Clock.le_now (k : Clock) : k.last ≤ k.now.1 := by
  unfold Clock.now; split <;> simp

@[simp] theorem Clock.now_reads (k : Clock) : k.now.2.reads = k.reads + 1 := by
  unfold Clock.now; split <;> rfl

/-- A reading the run supplies. -/
theorem Clock.now_supplied {k : Clock} {d : Nat} {ds : List Nat} (h : k.supplied = d :: ds) :
    k.now = (k.last + d, { last := k.last + d, reads := k.reads + 1, supplied := ds }) := by
  simp [Clock.now, h]

/-- The timer's value as a number: the magnitude less the whole ticks, stopping at 0 (45_fx.md R181). -/
theorem timerValue_toNat (m : Byte) (t0 t : Nat) : (timerValue m t0 t).toNat = m.toNat - (t - t0) / 16000000 := by
  have h := m.isLt
  simp only [timerValue, tickNs, BitVec.toNat_ofNat]
  exact Nat.mod_eq_of_lt (by omega)

@[simp] theorem RandomSource.draw_drawn (r : RandomSource) : r.draw.2.drawn = r.drawn + 1 := by
  unfold RandomSource.draw; split <;> rfl

@[simp] theorem RandomSource.draw_seed (r : RandomSource) : r.draw.2.seed = r.seed := by
  unfold RandomSource.draw; split <;> rfl

/-- A draw the run supplies. -/
theorem RandomSource.draw_supplied {r : RandomSource} {b : Byte} {bs : List Byte} (h : r.supplied = b :: bs) :
    r.draw = (b, { seed := r.seed, drawn := r.drawn + 1, supplied := bs }) := by
  simp [RandomSource.draw, h]

/-! ### Key latch -/

/-- The key test compares all eight bits of the code (44_keys.md R170). -/
theorem State.keyIsPressed_iff (s : State) (c : Byte) :
    s.keyIsPressed c = true ↔ ∃ k, s.key = some k ∧ k.toNat = c.toNat := by
  unfold State.keyIsPressed
  cases h : s.key with
  | none => simp
  | some k =>
    have := k.isLt
    have e : k.toNat % 2 ^ 8 = k.toNat := Nat.mod_eq_of_lt (by omega)
    rw [beq_iff_eq, ← BitVec.toNat_inj, BitVec.toNat_setWidth, e]
    simp only [Option.some.injEq, exists_eq_left']

/-! ### Call stack -/

theorem State.top?_of_le {s : State} (h : s.sp.toNat < 16) : s.top? = some (s.stack[s.sp.toNat]) := by
  simp [State.top?, h]

theorem State.top?_none {s : State} (h : 16 ≤ s.sp.toNat) : s.top? = none := by
  simp [State.top?, h]

/-- A push at `SP = 15` or less of a stack read back: the slot pushed to, and every other slot as before. -/
theorem State.push_slot (s : State) (a : Word) (k : Fin 16) :
    (s.push a).stack[k] = if (s.sp + 1#8).toNat = k.val then a else s.stack[k] := by
  simp [State.push, Vector.getElem_setIfInBounds]

end Sys2Proof.Machine
end

