-- ==== Sys2Proof/Laws/PerInstr.lean ====
section
/-! SUPPORT. The per-instruction family `EncodeRow`: the word of an instruction lies in its own row of the opcode table
(30_encoding.md R73), and its ignored bits (R75) are 0. -/

namespace Sys2Proof.Laws.EncodeRow

/-- The word of `i` has the fixed bits of its row, and 0 in every bit its row ignores. -/
def Statement (i : Instr) : Prop := encode i &&& i.rowMask = i.rowMatch ∧ encode i &&& i.ignoredBits = 0#16

theorem masked_formNNN (op : Nibble) (nnn : Addr) : formNNN op nnn &&& 0xF000#16 = formNNN op 0x000#12 := by
  apply BitVec.eq_of_getLsbD_eq
  intro i hi
  simp only [formNNN, BitVec.getLsbD_and, BitVec.getLsbD_append]
  interval_cases i <;> simp

theorem masked_formXKK (op x : Nibble) (kk : Byte) : formXKK op x kk &&& 0xF0FF#16 = formXKK op 0x0#4 kk := by
  apply BitVec.eq_of_getLsbD_eq
  intro i hi
  simp only [formXKK, BitVec.getLsbD_and, BitVec.getLsbD_append]
  interval_cases i <;> simp

theorem op_formXKK (op x : Nibble) (kk : Byte) : formXKK op x kk &&& 0xF000#16 = formXKK op 0x0#4 0x00#8 := by
  apply BitVec.eq_of_getLsbD_eq
  intro i hi
  simp only [formXKK, BitVec.getLsbD_and, BitVec.getLsbD_append]
  interval_cases i <;> simp

theorem masked_formXYN (op x y n : Nibble) : formXYN op x y n &&& 0xF00F#16 = formXYN op 0x0#4 0x0#4 n := by
  apply BitVec.eq_of_getLsbD_eq
  intro i hi
  simp only [formXYN, BitVec.getLsbD_and, BitVec.getLsbD_append]
  interval_cases i <;> simp

theorem op_formXYN (op x y n : Nibble) : formXYN op x y n &&& 0xF000#16 = formXYN op 0x0#4 0x0#4 0x0#4 := by
  apply BitVec.eq_of_getLsbD_eq
  intro i hi
  simp only [formXYN, BitVec.getLsbD_and, BitVec.getLsbD_append]
  interval_cases i <;> simp

theorem y_formXYN (op x n : Nibble) : formXYN op x 0x0#4 n &&& 0x00F0#16 = 0#16 := by
  apply BitVec.eq_of_getLsbD_eq
  intro i hi
  simp only [formXYN, BitVec.getLsbD_and, BitVec.getLsbD_append]
  interval_cases i <;> simp

theorem cls : Statement .cls := by unfold Statement; decide
theorem ret : Statement .ret := by unfold Statement; decide
theorem sysAddr (nnn : Addr) : Statement (.sysAddr nnn) := ⟨masked_formNNN _ _, BitVec.and_zero⟩
theorem jpAddr (nnn : Addr) : Statement (.jpAddr nnn) := ⟨masked_formNNN _ _, BitVec.and_zero⟩
theorem callAddr (nnn : Addr) : Statement (.callAddr nnn) := ⟨masked_formNNN _ _, BitVec.and_zero⟩
theorem seVxByte (x : Nibble) (kk : Byte) : Statement (.seVxByte x kk) := ⟨op_formXKK _ _ _, BitVec.and_zero⟩
theorem sneVxByte (x : Nibble) (kk : Byte) : Statement (.sneVxByte x kk) := ⟨op_formXKK _ _ _, BitVec.and_zero⟩
theorem seVxVy (x y : Nibble) : Statement (.seVxVy x y) := ⟨masked_formXYN _ _ _ _, BitVec.and_zero⟩
theorem ldVxByte (x : Nibble) (kk : Byte) : Statement (.ldVxByte x kk) := ⟨op_formXKK _ _ _, BitVec.and_zero⟩
theorem addVxByte (x : Nibble) (kk : Byte) : Statement (.addVxByte x kk) := ⟨op_formXKK _ _ _, BitVec.and_zero⟩
theorem ldVxVy (x y : Nibble) : Statement (.ldVxVy x y) := ⟨masked_formXYN _ _ _ _, BitVec.and_zero⟩
theorem orVxVy (x y : Nibble) : Statement (.orVxVy x y) := ⟨masked_formXYN _ _ _ _, BitVec.and_zero⟩
theorem andVxVy (x y : Nibble) : Statement (.andVxVy x y) := ⟨masked_formXYN _ _ _ _, BitVec.and_zero⟩
theorem xorVxVy (x y : Nibble) : Statement (.xorVxVy x y) := ⟨masked_formXYN _ _ _ _, BitVec.and_zero⟩
theorem addVxVy (x y : Nibble) : Statement (.addVxVy x y) := ⟨masked_formXYN _ _ _ _, BitVec.and_zero⟩
theorem subVxVy (x y : Nibble) : Statement (.subVxVy x y) := ⟨masked_formXYN _ _ _ _, BitVec.and_zero⟩
theorem shrVx (x : Nibble) : Statement (.shrVx x) := ⟨masked_formXYN _ _ _ _, y_formXYN _ _ _⟩
theorem subnVxVy (x y : Nibble) : Statement (.subnVxVy x y) := ⟨masked_formXYN _ _ _ _, BitVec.and_zero⟩
theorem shlVx (x : Nibble) : Statement (.shlVx x) := ⟨masked_formXYN _ _ _ _, y_formXYN _ _ _⟩
theorem sneVxVy (x y : Nibble) : Statement (.sneVxVy x y) := ⟨masked_formXYN _ _ _ _, BitVec.and_zero⟩
theorem ldIAddr (nnn : Addr) : Statement (.ldIAddr nnn) := ⟨masked_formNNN _ _, BitVec.and_zero⟩
theorem jpV0Addr (nnn : Addr) : Statement (.jpV0Addr nnn) := ⟨masked_formNNN _ _, BitVec.and_zero⟩
theorem rndVxByte (x : Nibble) (kk : Byte) : Statement (.rndVxByte x kk) := ⟨op_formXKK _ _ _, BitVec.and_zero⟩
theorem drw (x y n : Nibble) : Statement (.drw x y n) := ⟨op_formXYN _ _ _ _, BitVec.and_zero⟩
theorem skpVx (x : Nibble) : Statement (.skpVx x) := ⟨masked_formXKK _ _ _, BitVec.and_zero⟩
theorem sknpVx (x : Nibble) : Statement (.sknpVx x) := ⟨masked_formXKK _ _ _, BitVec.and_zero⟩
theorem ldVxDt (x : Nibble) : Statement (.ldVxDt x) := ⟨masked_formXKK _ _ _, BitVec.and_zero⟩
theorem ldVxK (x : Nibble) : Statement (.ldVxK x) := ⟨masked_formXKK _ _ _, BitVec.and_zero⟩
theorem ldDtVx (x : Nibble) : Statement (.ldDtVx x) := ⟨masked_formXKK _ _ _, BitVec.and_zero⟩
theorem ldStVx : Statement .ldStVx := by unfold Statement; decide
theorem addIVx (x : Nibble) : Statement (.addIVx x) := ⟨masked_formXKK _ _ _, BitVec.and_zero⟩
theorem ldFVx (x : Nibble) : Statement (.ldFVx x) := ⟨masked_formXKK _ _ _, BitVec.and_zero⟩
theorem ldBVx (x : Nibble) : Statement (.ldBVx x) := ⟨masked_formXKK _ _ _, BitVec.and_zero⟩
theorem ldMemVx (x : Nibble) : Statement (.ldMemVx x) := ⟨masked_formXKK _ _ _, BitVec.and_zero⟩
theorem ldVxMem (x : Nibble) : Statement (.ldVxMem x) := ⟨masked_formXKK _ _ _, BitVec.and_zero⟩

end Sys2Proof.Laws.EncodeRow
end

