-- ==== Sys2Proof/Laws/Step.lean ====
section
/-! SUPPORT. What a step can do, once, and the reset state built from the launch defaults. -/

namespace Sys2Proof.Machine

/-- A step that gives a next state ran the fetched word's instruction, or the word is illegal and the step recorded a
decode failure. In both cases the block was running. -/
theorem step_cases {s t : State} (h : step s = .next t) :
    s.run = .running ∧
      ((∃ ins, decodeWord s.fetchWord = .ok ins ∧ exec ins s = .next t) ∨
        ((∃ e, decodeWord s.fetchWord = .error e) ∧ t = s.raise .decodeFailure s.fetchWord)) := by
  unfold step cycle at h
  cases hr : s.run with
  | faulted c p w => simp [hr] at h
  | running =>
    refine ⟨rfl, ?_⟩
    simp only [hr, fetchDecodeExecute] at h
    cases hd : decodeWord s.fetchWord with
    | ok ins => exact Or.inl ⟨ins, rfl, by simpa [hd] using h⟩
    | error e =>
      rw [hd] at h
      exact Or.inr ⟨⟨e, rfl⟩, by cases h; rfl⟩

/-- A running block at a legal word: the step is the instruction. -/
theorem step_of_ok {s : State} {ins : Instr} (hr : s.run = .running) (hd : decodeWord s.fetchWord = .ok ins) :
    step s = exec ins s := by
  simp [step, cycle, hr, fetchDecodeExecute, hd]

/-- A running block at an illegal word: the step records a decode failure. -/
theorem step_of_error {s : State} {e : DecodeReject} (hr : s.run = .running)
    (hd : decodeWord s.fetchWord = .error e) : step s = .next (s.raise .decodeFailure s.fetchWord) := by
  simp [step, cycle, hr, fetchDecodeExecute, hd]

/-- A faulted block takes no step. -/
theorem step_of_faulted {s : State} {c : FaultCause} {p w : Word} (hr : s.run = .faulted c p w) :
    step s = .fault .stepWhileFaulted := by
  simp [step, cycle, hr]

/-- `withFetchWord` places the word where the next step fetches it. -/
theorem fetchWord_placeWord (s : State) (w : Word) : (s.placeWord w).fetchWord = w := by
  have hne : maskAddr s.pc ≠ maskAddr (s.pc + 1#16) := by
    have := s.pc.isLt
    have e : (1#16).toNat = 1 := rfl
    simp only [maskAddr_eq_mod, BitVec.toNat_add, e]
    omega
  have h0 : (s.placeWord w).memRead s.pc = hiByte w := by
    show ((s.memWrite s.pc _).memWrite (s.pc + 1#16) _).memRead s.pc = _
    rw [State.memRead_memWrite, if_neg hne, State.memRead_memWrite, if_pos rfl]; rfl
  have h1 : (s.placeWord w).memRead (s.pc + 1#16) = loByte w := by
    show ((s.memWrite s.pc _).memWrite (s.pc + 1#16) _).memRead (s.pc + 1#16) = _
    rw [State.memRead_memWrite, if_pos rfl]; rfl
  show (s.placeWord w).memRead s.pc ++ (s.placeWord w).memRead (s.pc + 1#16) = w
  rw [h0, h1]
  exact wordOfBytes_bytes w

/-- Writing bytes changes nothing but memory. -/
theorem State.memWriteAll_eq (s : State) (a : Word) (l : List Byte) :
    s.memWriteAll a l = { s with mem := (s.memWriteAll a l).mem } := by
  induction l generalizing s a with
  | nil => rfl
  | cons b rest ih => exact ih (s.memWrite a b) (a + 1#16)

/-- Writing the font on a memory that lists nothing lists nothing: it is what unlisted addresses read as. -/
theorem font_is_reset : (State.reset.memWriteAll 0x0000#16 (fontTable.take 80)).mem = [] := by
  decide +kernel

/-- What writing bytes leaves in memory depends on memory alone. -/
theorem State.memWriteAll_mem_congr {s t : State} (h : s.mem = t.mem) (a : Word) (l : List Byte) :
    (s.memWriteAll a l).mem = (t.memWriteAll a l).mem := by
  induction l generalizing s t a with
  | nil => exact h
  | cons b rest ih => exact ih (by simp [h]) (a + 1#16)

/-- Construction with the spec's default launch parameters, whatever the seed: the reset state with the given clock,
start instant and count of draws. -/
theorem construct_seed (seed : Nat) (k : Clock) (t drawn : Nat) :
    State.construct { seed := seed } k t drawn =
      { State.reset with tStart := t, clock := k, rng := { seed := seed, drawn := drawn, supplied := [] } } := by
  have hm : ∀ u : State, u.mem = [] →
      u.memWriteAll 0x0000#16 (fontTable.take 80) = { u with mem := [] } := fun u h => by
    rw [State.memWriteAll_eq, State.memWriteAll_mem_congr (t := State.reset) h, font_is_reset]
  exact hm _ rfl

/-- Construction with the spec's default launch parameters is `State.reset`. -/
theorem construct_default : State.construct {} { last := 0, reads := 0, supplied := [] } 0 0 = State.reset :=
  construct_seed 0 _ 0 0

/-- Writing the launch's memory bytes changes nothing but memory. -/
theorem State.writeResetMem_eq (s : State) (l : List (Word × Byte)) :
    s.writeResetMem l = { s with mem := (s.writeResetMem l).mem } := by
  induction l generalizing s with
  | nil => rfl
  | cons c rest ih =>
    unfold State.writeResetMem
    split
    · exact ih s
    · exact ih (s.memWrite c.1 c.2)

theorem State.writeResetMem_wf {s : State} (l : List (Word × Byte)) (h : s.mem.wf = true) :
    (s.writeResetMem l).mem.wf = true := by
  induction l generalizing s with
  | nil => exact h
  | cons c rest ih =>
    unfold State.writeResetMem
    apply ih
    split
    · exact h
    · exact State.memWrite_wf _ _ h

end Sys2Proof.Machine
end

