-- ==== Sys2Proof/Tests/Slice0.lean ====
section
/-! SUPPORT. Tests of the model's own: words written out from the spec's encoding table, single steps whose expected
results are the rows of spec/95_test_vectors.md, and for every obligation with hypotheses a concrete case that meets
them (`witness_…`). -/

namespace Sys2Proof.Tests
open Sys2Proof.Machine

-- One theorem at a time: many kernel evaluations waiting on each other use up the threads of the process.
set_option Elab.async false

/-! ### Helpers -/

/-- The reset state with the word `w` at 0x200, where the next step fetches it. -/
def start (w : Nat) : State := State.reset.withFetchWord 16 w

/-- The same at another PC. -/
def startAt (pc : Word) (w : Nat) : State := { State.reset with pc := pc }.withFetchWord 16 w

/-- The state with one cell lit. -/
def lit (s : State) (r : BitVec 5) (c : BitVec 6) : State := { s with fb := s.fb.setCell r c true }

/-- What is seen of the next state, where the step gives one. -/
def sees {α : Type} (s : State) (f : State → α) : Option α :=
  match step s with
  | .next t => some (f t)
  | .fault _ => none
  | .refused _ => none

/-- Row `r`'s first `n` cells from column `c` on, with columns modulo 64. -/
def rowFrom (s : State) (r : BitVec 5) (c n : Nat) : List Bool :=
  (List.range n).map (fun k => s.fb.cell r (BitVec.ofNat 6 (c + k)))

/-! ### WellFormed (30_encoding.md R73) -/

theorem test_sys_cls_word_ill_formed : ¬ (Instr.sysAddr 0x0E0#12).WellFormed := by decide
theorem test_sys_ret_word_ill_formed : ¬ (Instr.sysAddr 0x0EE#12).WellFormed := by decide
theorem test_sys_neighbours_well_formed :
    (Instr.sysAddr 0x0E1#12).WellFormed ∧ (Instr.sysAddr 0x0EF#12).WellFormed ∧ (Instr.sysAddr 0x000#12).WellFormed ∧
      Instr.cls.WellFormed := by decide

/-! ### Decoding: each word written out from the table's pattern (30_encoding.md R73) -/

theorem test_decode_family0 :
    decodeWord 0b0000_0000_1110_0000#16 = .ok .cls ∧ decodeWord 0b0000_0000_1110_1110#16 = .ok .ret ∧
    decodeWord 0b0000_0000_1110_0001#16 = .ok (.sysAddr 0x0E1#12) ∧
    decodeWord 0b0000_0001_0010_0011#16 = .ok (.sysAddr 0x123#12) := by decide
theorem test_decode_jumps :
    decodeWord 0b0001_1010_1011_1100#16 = .ok (.jpAddr 0xABC#12) ∧
    decodeWord 0b0010_0011_0000_0000#16 = .ok (.callAddr 0x300#12) ∧
    decodeWord 0b1011_0001_0010_0011#16 = .ok (.jpV0Addr 0x123#12) ∧
    decodeWord 0b1010_0010_1111_0000#16 = .ok (.ldIAddr 0x2F0#12) := by decide
theorem test_decode_skips :
    decodeWord 0b0011_0011_0100_0010#16 = .ok (.seVxByte 0x3#4 0x42#8) ∧
    decodeWord 0b0100_0011_0100_0010#16 = .ok (.sneVxByte 0x3#4 0x42#8) ∧
    decodeWord 0b0101_0001_0010_0000#16 = .ok (.seVxVy 0x1#4 0x2#4) ∧
    decodeWord 0b1001_0001_0010_0000#16 = .ok (.sneVxVy 0x1#4 0x2#4) := by decide
theorem test_decode_immediates :
    decodeWord 0b0110_1010_0101_1100#16 = .ok (.ldVxByte 0xA#4 0x5C#8) ∧
    decodeWord 0b0111_0000_0000_0011#16 = .ok (.addVxByte 0x0#4 0x03#8) ∧
    decodeWord 0b1100_0011_0000_1111#16 = .ok (.rndVxByte 0x3#4 0x0F#8) := by decide
theorem test_decode_family8 :
    decodeWord 0b1000_0001_0010_0000#16 = .ok (.ldVxVy 0x1#4 0x2#4) ∧
    decodeWord 0b1000_0001_0010_0001#16 = .ok (.orVxVy 0x1#4 0x2#4) ∧
    decodeWord 0b1000_0001_0010_0010#16 = .ok (.andVxVy 0x1#4 0x2#4) ∧
    decodeWord 0b1000_0001_0010_0011#16 = .ok (.xorVxVy 0x1#4 0x2#4) ∧
    decodeWord 0b1000_0001_0010_0100#16 = .ok (.addVxVy 0x1#4 0x2#4) ∧
    decodeWord 0b1000_0001_0010_0101#16 = .ok (.subVxVy 0x1#4 0x2#4) ∧
    decodeWord 0b1000_0001_1110_0110#16 = .ok (.shrVx 0x1#4) ∧
    decodeWord 0b1000_0001_0010_0111#16 = .ok (.subnVxVy 0x1#4 0x2#4) ∧
    decodeWord 0b1000_0001_0010_1110#16 = .ok (.shlVx 0x1#4) := by decide
theorem test_decode_draw_and_keys :
    decodeWord 0b1101_0001_0010_0101#16 = .ok (.drw 0x1#4 0x2#4 0x5#4) ∧
    decodeWord 0b1110_0010_1001_1110#16 = .ok (.skpVx 0x2#4) ∧
    decodeWord 0b1110_0010_1010_0001#16 = .ok (.sknpVx 0x2#4) := by decide
theorem test_decode_familyF :
    decodeWord 0b1111_0011_0000_0111#16 = .ok (.ldVxDt 0x3#4) ∧
    decodeWord 0b1111_0010_0000_1010#16 = .ok (.ldVxK 0x2#4) ∧
    decodeWord 0b1111_0001_0001_0101#16 = .ok (.ldDtVx 0x1#4) ∧
    decodeWord 0b1111_0101_0001_1000#16 = .ok .ldStVx ∧
    decodeWord 0b1111_0100_0001_1110#16 = .ok (.addIVx 0x4#4) ∧
    decodeWord 0b1111_1010_0010_1001#16 = .ok (.ldFVx 0xA#4) ∧
    decodeWord 0b1111_0101_0011_0011#16 = .ok (.ldBVx 0x5#4) ∧
    decodeWord 0b1111_0010_0101_0101#16 = .ok (.ldMemVx 0x2#4) ∧
    decodeWord 0b1111_0010_0110_0101#16 = .ok (.ldVxMem 0x2#4) := by decide
/-- R74, one word of each group, and the neighbours A19, B39, B40, C4, E8, F37, F38. -/
theorem test_decode_rejects_by_name :
    decodeWord 0x5121#16 = .error (.family5 0x5121#16) ∧ decodeWord 0x8008#16 = .error (.family8 0x8008#16) ∧
    decodeWord 0x800F#16 = .error (.family8 0x800F#16) ∧ decodeWord 0x9121#16 = .error (.family9 0x9121#16) ∧
    decodeWord 0xE09F#16 = .error (.familyE 0xE09F#16) ∧ decodeWord 0xF000#16 = .error (.familyF 0xF000#16) ∧
    decodeWord 0xFFFF#16 = .error (.familyF 0xFFFF#16) ∧ decodeBytes [0x61#8] = .error .truncated := by decide
/-- R70: two bytes, the high one first, and the rest is left. -/
theorem test_decode_bytes_big_endian :
    decodeBytes [0x6A#8, 0x5C#8, 0x77#8] = .ok (.ldVxByte 0xA#4 0x5C#8, [0x77#8]) ∧
    decodeTableWord 16 0x6A5C = some (.ldVxByte 0xA#4 0x5C#8) ∧ decodeTableWord 16 0x5121 = none := by decide

/-- From a bare reset the word at 0x200 is 0000, a jump to 0x000. -/
theorem reset_step : step State.reset = .next (State.reset.jump 0x0000#16) := rfl

/-! ### Families 0–5 (95_test_vectors.md A, P8) -/

theorem test_A1_cls : sees (lit (start 0x00E0) 31#5 63#6) (fun t => (t.fb.cell 31#5 63#6, t.pc)) = some (false, 0x202#16) := by
  decide +kernel
theorem test_A2_ret :
    sees { startAt 0x300#16 0x00EE with sp := 1#8, stack := State.reset.stack.set 1 0x206#16 } (fun t => (t.pc, t.sp)) =
      some (0x206#16, 0#8) := by decide +kernel
theorem test_A3_ret_underflow :
    sees (start 0x00EE) (fun t => (t.run, t.pc, t.sp)) =
      some (.faulted .stackUnderflow 0x200#16 0x00EE#16, 0x200#16, 0#8) := by decide +kernel
theorem test_A4_sys : sees (start 0x0123) (fun t => (t.pc, t.sp)) = some (0x123#16, 0#8) := by decide +kernel
theorem test_A6_sys_near_cls : sees (start 0x00E1) (fun t => t.pc) = some 0x0E1#16 := by decide +kernel
theorem test_A7_jp : sees (start 0x1ABC) (fun t => t.pc) = some 0xABC#16 := by decide +kernel
theorem test_A9_call :
    sees (start 0x2300) (fun t => (t.sp, t.stack[1], t.pc)) = some (1#8, 0x202#16, 0x300#16) := by decide +kernel
theorem test_A10_call_overflow :
    sees { start 0x2300 with sp := 15#8 } (fun t => (t.run, t.sp, t.pc)) =
      some (.faulted .stackOverflow 0x200#16 0x2300#16, 15#8, 0x200#16) := by decide +kernel
theorem test_A11_call_wraps :
    sees (startAt 0xFFFE#16 0x2400) (fun t => (t.sp, t.stack[1], t.pc)) = some (1#8, 0x0000#16, 0x400#16) := by
  decide +kernel
theorem test_A12_A13_se :
    sees ((startAt 0x210#16 0x3342).setV 3 0x42) (fun t => t.pc) = some 0x214#16 ∧
    sees ((startAt 0x210#16 0x3342).setV 3 0x41) (fun t => t.pc) = some 0x212#16 := by decide +kernel
theorem test_A14_A15_sne :
    sees ((startAt 0x210#16 0x4342).setV 3 0x42) (fun t => t.pc) = some 0x212#16 ∧
    sees ((startAt 0x210#16 0x4342).setV 3 0x41) (fun t => t.pc) = some 0x214#16 := by decide +kernel
theorem test_A16_A17_se_registers :
    sees (((startAt 0x210#16 0x5120).setV 1 7).setV 2 7) (fun t => t.pc) = some 0x214#16 ∧
    sees (((startAt 0x210#16 0x5120).setV 1 7).setV 2 8) (fun t => t.pc) = some 0x212#16 := by decide +kernel

/-! ### Families 6–8 (95_test_vectors.md B) -/

theorem test_B1_ld : sees (start 0x6A5C) (fun t => (t.getV 0xA, t.pc)) = some (0x5C#8, 0x202#16) := by decide +kernel
theorem test_B3_add_no_carry :
    sees (((start 0x7003).setV 0 0xFE).setV 0xF 0x55) (fun t => (t.getV 0, t.getV 0xF)) = some (0x01#8, 0x55#8) := by
  decide +kernel
theorem test_B5_copy : sees ((start 0x8120).setV 2 0x33) (fun t => (t.getV 1, t.getV 2)) = some (0x33#8, 0x33#8) := by
  decide +kernel
theorem test_B6_or :
    sees ((((start 0x8121).setV 1 0xF0).setV 2 0x0C).setV 0xF 0x77) (fun t => (t.getV 1, t.getV 0xF)) =
      some (0xFC#8, 0x77#8) := by decide +kernel
theorem test_B7_and :
    sees ((((start 0x8122).setV 1 0xF0).setV 2 0x3C).setV 0xF 0x77) (fun t => (t.getV 1, t.getV 0xF)) =
      some (0x30#8, 0x77#8) := by decide +kernel
theorem test_B8_xor :
    sees ((((start 0x8123).setV 1 0xF0).setV 2 0x3C).setV 0xF 0x77) (fun t => (t.getV 1, t.getV 0xF)) =
      some (0xCC#8, 0x77#8) := by decide +kernel
theorem test_B10_add_carry :
    sees (((start 0x8124).setV 1 0xFE).setV 2 0x03) (fun t => (t.getV 1, t.getV 0xF)) = some (0x01#8, 0x01#8) := by
  decide +kernel
theorem test_B15_add_into_flag :
    sees (((start 0x8F14).setV 0xF 0x05).setV 1 0xFF) (fun t => (t.getV 1, t.getV 0xF)) = some (0xFF#8, 0x01#8) := by
  decide +kernel
theorem test_B17_sub_borrow :
    sees (((start 0x8125).setV 1 0x31).setV 2 0x32) (fun t => (t.getV 1, t.getV 0xF)) = some (0xFF#8, 0x00#8) := by
  decide +kernel
theorem test_B18_sub_equal :
    sees (((start 0x8125).setV 1 0x32).setV 2 0x32) (fun t => (t.getV 1, t.getV 0xF)) = some (0x00#8, 0x01#8) := by
  decide +kernel
theorem test_B22_shr : sees ((start 0x8126).setV 1 0x41) (fun t => (t.getV 1, t.getV 0xF)) = some (0x20#8, 0x01#8) := by
  decide +kernel
theorem test_B26_B27_shr_flag :
    sees ((start 0x8F06).setV 0xF 0x03) (fun t => t.getV 0xF) = some 0x01#8 ∧
    sees ((start 0x8F06).setV 0xF 0x80) (fun t => t.getV 0xF) = some 0x40#8 := by decide +kernel
theorem test_B29_subn_equal :
    sees (((start 0x8127).setV 1 0x08).setV 2 0x08) (fun t => (t.getV 1, t.getV 0xF)) = some (0x00#8, 0x00#8) := by
  decide +kernel
theorem test_B33_subn_flag_source :
    sees (((start 0x81F7).setV 1 0x02).setV 0xF 0x07) (fun t => (t.getV 1, t.getV 0xF)) = some (0x05#8, 0x01#8) := by
  decide +kernel
theorem test_B34_shl : sees ((start 0x812E).setV 1 0x81) (fun t => (t.getV 1, t.getV 0xF)) = some (0x02#8, 0x01#8) := by
  decide +kernel
theorem test_B37_B38_shl_flag :
    sees ((start 0x8F0E).setV 0xF 0x81) (fun t => t.getV 0xF) = some 0x02#8 ∧
    sees ((start 0x8F0E).setV 0xF 0x40) (fun t => t.getV 0xF) = some 0x80#8 := by decide +kernel

/-! ### Families 9–C (95_test_vectors.md C) -/

theorem test_C1_C2_sne_registers :
    sees (((startAt 0x210#16 0x9120).setV 1 1).setV 2 2) (fun t => t.pc) = some 0x214#16 ∧
    sees (((startAt 0x210#16 0x9120).setV 1 2).setV 2 2) (fun t => t.pc) = some 0x212#16 := by decide +kernel
theorem test_C5_ld_index : sees ((start 0xA2F0).setI 0xFFFF#16) (fun t => t.i) = some 0x02F0#16 := by decide +kernel
theorem test_C6_jump_offset : sees ((start 0xB123).setV 0 0x45) (fun t => t.pc) = some 0x0168#16 := by decide +kernel
theorem test_C7_jump_offset_unmasked : sees ((start 0xBFFF).setV 0 0xFF) (fun t => t.pc) = some 0x10FE#16 := by
  decide +kernel
theorem test_C9_rnd :
    sees { start 0xC30F with rng := { seed := 0, drawn := 0, supplied := [0xB7#8, 0x11#8] } }
      (fun t => (t.getV 3, t.rng.supplied, t.pc)) = some (0x07#8, [0x11#8], 0x202#16) := by decide +kernel
theorem test_C10_rnd_zero_mask :
    sees { start 0xC300 with rng := { seed := 0, drawn := 0, supplied := [0xB7#8] } }
      (fun t => (t.getV 3, t.rng.drawn)) = some (0x00#8, 1) := by decide +kernel

/-! ### Family D (95_test_vectors.md D) -/

/-- D1, the second draw: the sprite's two cells are lit before it. -/
theorem test_D1_second_draw_collides :
    sees (((lit (lit (start 0xD011) 0#5 0#6) 0#5 1#6).setI 0x300#16).memWrite 0x300#16 0xC0#8)
      (fun t => (rowFrom t 0#5 0 8, t.getV 0xF)) = some (List.replicate 8 false, 0x01#8) := by decide +kernel
/-- D3: columns wrap modulo 64 and rows modulo 32. -/
theorem test_D3_draw_wraps :
    sees ((((((start 0xD122).setI 0x300#16).memWrite 0x300#16 0xFF#8).memWrite 0x301#16 0x81#8).setV 1 62).setV 2 31)
      (fun t => (rowFrom t 31#5 62 9, rowFrom t 0#5 62 9, t.getV 0xF)) =
      some (List.replicate 8 true ++ [false], [true, false, false, false, false, false, false, true, false], 0x00#8) := by
  decide +kernel

/-! ### Family E (95_test_vectors.md E) -/

theorem test_E1_E4_skp :
    sees { (startAt 0x220#16 0xE29E).setV 2 0x05 with key := some 5#4 } (fun t => t.pc) = some 0x224#16 ∧
    sees { (startAt 0x220#16 0xE29E).setV 2 0x15 with key := some 5#4 } (fun t => t.pc) = some 0x222#16 := by
  decide +kernel
theorem test_E5_E6_sknp :
    sees { (startAt 0x220#16 0xE2A1).setV 2 0x05 with key := some 5#4 } (fun t => t.pc) = some 0x222#16 ∧
    sees ((startAt 0x220#16 0xE2A1).setV 2 0x05) (fun t => t.pc) = some 0x224#16 := by decide +kernel

/-! ### Family F (95_test_vectors.md F) -/

/-- A timer of magnitude 10 set at the instant 0, read `ns` nanoseconds later by F307. -/
def timerAfter (ns : Nat) : State :=
  { start 0xF307 with tInit := 10#8, clock := { last := 0, reads := 0, supplied := [ns] } }

theorem test_F1_F4_timer :
    sees (timerAfter 0) (fun t => t.getV 3) = some 10#8 ∧ sees (timerAfter 15999000) (fun t => t.getV 3) = some 10#8 ∧
    sees (timerAfter 16000000) (fun t => t.getV 3) = some 9#8 ∧
    sees (timerAfter 40000000) (fun t => t.getV 3) = some 8#8 := by decide +kernel
theorem test_F6_F8_timer :
    sees (timerAfter 159999000) (fun t => t.getV 3) = some 1#8 ∧
    sees (timerAfter 160000000) (fun t => t.getV 3) = some 0#8 ∧
    sees (timerAfter 10000000000) (fun t => t.getV 3) = some 0#8 := by decide +kernel
/-- F11, the first step: 100 ms after the last set, the count restarts at 3. -/
theorem test_F11_timer_set :
    sees { (start 0xF415).setV 4 3 with tInit := 10#8, clock := { last := 0, reads := 0, supplied := [100000000] } }
      (fun t => (t.tStart, t.tInit)) = some (100000000, 3#8) := by decide +kernel
theorem test_F12_sound_timer : sees (start 0xF518) id = some (start 0xF518).advance := by decide +kernel
theorem test_F13_key_latched :
    sees { (start 0xF20A).setV 2 0x77 with key := some 0xA#4 } (fun t => (t.getV 2, t.pc, t.key)) =
      some (0x0A#8, 0x202#16, some 0xA#4) := by decide +kernel
theorem test_F14_no_key :
    sees ((start 0xF20A).setV 2 0x77) (fun t => (t.getV 2, t.pc)) = some (0x77#8, 0x202#16) := by decide +kernel
theorem test_F17_F18_add_index :
    sees (((start 0xF41E).setI 0xFFFF#16).setV 4 1) (fun t => (t.i, t.getV 0xF)) = some (0x0000#16, 0x00#8) ∧
    sees (((start 0xF41E).setI 0x0FFF#16).setV 4 1) (fun t => t.i) = some 0x1000#16 := by decide +kernel
theorem test_F20_F23_glyph :
    sees ((start 0xF029).setV 0 0x0A) (fun t => t.i) = some 0x0032#16 ∧
    sees ((start 0xF029).setV 0 0xFF) (fun t => t.i) = some 0x04FB#16 := by decide +kernel
theorem test_F28_bcd :
    sees (((start 0xF533).setI 0x300#16).setV 5 254)
      (fun t => (t.memRead 0x300#16, t.memRead 0x301#16, t.memRead 0x302#16, t.i)) =
      some (2#8, 5#8, 4#8, 0x300#16) := by decide +kernel
theorem test_F30_bcd_wraps :
    sees (((start 0xF533).setI 0xFFE#16).setV 5 123) (fun t => (t.memRead 0xFFE#16, t.memRead 0xFFF#16, t.memRead 0#16)) =
      some (1#8, 2#8, 3#8) := by decide +kernel
theorem test_F31_store :
    sees (((((start 0xF255).setI 0x400#16).setV 0 1).setV 1 2).setV 2 3)
      (fun t => (t.memRead 0x400#16, t.memRead 0x402#16, t.memRead 0x403#16, t.i)) =
      some (1#8, 3#8, 0#8, 0x0403#16) := by decide +kernel
theorem test_F34_store_wraps :
    sees ((((start 0xF155).setI 0xFFFF#16).setV 0 0xAA).setV 1 0xBB) (fun t => (t.memRead 0xFFF#16, t.memRead 0#16, t.i)) =
      some (0xAA#8, 0xBB#8, 0x0001#16) := by decide +kernel
theorem test_F35_load :
    sees (((((start 0xF265).setI 0x400#16).memWrite 0x400#16 1).memWrite 0x401#16 2).memWrite 0x402#16 3)
      (fun t => (t.getV 0, t.getV 1, t.getV 2, t.getV 3, t.i)) = some (1#8, 2#8, 3#8, 0#8, 0x0400#16) := by
  decide +kernel
theorem test_F36_load_all :
    sees (((start 0xFF65).setI 0x400#16).memWrite 0x40F#16 0x99) (fun t => (t.getV 0xF, t.i)) = some (0x99#8, 0x0400#16) := by
  decide +kernel

/-! ### Fetch, memory, faults and the host (95_test_vectors.md G, A19, P2, P5) -/

theorem test_G1_fetch_wraps :
    sees ({ State.reset with pc := 0xFFF#16 }.memWrite 0xFFF#16 0x61 |>.memWrite 0#16 0x23) (fun t => (t.getV 1, t.pc)) =
      some (0x23#8, 0x1000#16 + 1#16) := by decide +kernel
theorem test_G2_pc_wraps : sees (startAt 0xFFFE#16 0x6001) (fun t => (t.getV 0, t.pc)) = some (1#8, 0x0000#16) := by
  decide +kernel
theorem test_A19_decode_failure :
    sees (start 0x5121) id = some { start 0x5121 with run := .faulted .decodeFailure 0x200#16 0x5121#16 } := by
  decide +kernel
theorem test_A5_font_word_is_illegal :
    sees { State.reset with pc := 0#16 } id =
      some { State.reset with pc := 0#16, run := .faulted .decodeFailure 0#16 0xF090#16 } := by decide +kernel
theorem test_stuck_when_faulted :
    step { start 0x6A5C with run := .faulted .decodeFailure 0x200#16 0x5121#16 } = .fault .stepWhileFaulted := rfl
theorem test_memory_stays_canonical :
    (State.reset.memWrite 0x300#16 7).mem = [(0x300, 7#8)] ∧ ((State.reset.memWrite 0x300#16 7).memWrite 0x300#16 0).mem = [] ∧
    (State.reset.memWrite 0x0000#16 0xF0).mem = [] := by decide +kernel
theorem test_load_rom : State.loadRom State.reset [0x6A#8, 0x5C#8] = .next (start 0x6A5C) := by
  show Host.Outcome.next (State.reset.memWriteAll _ _) = _
  congr 1

/-! ### Witnesses: a case that meets the hypotheses of each obligation -/

theorem witness_DecodeUndoesEncode :
    (Instr.sysAddr 0xFFF#12).WellFormed ∧ (Instr.drw 0xF#4 0x0#4 0xF#4).WellFormed ∧
      (Instr.ldVxMem 0xF#4).WellFormed := by decide
theorem witness_DecodeFollowsOpcodeTable :
    decodeWord 0x8FF6#16 = .ok (.shrVx 0xF#4) ∧
    (0x00EE#16 &&& Instr.ret.rowMask = Instr.ret.rowMatch ∧ Instr.ret.rowMask = 0xFFFF#16) ∧
    (0x00E1#16 &&& (Instr.sysAddr 0#12).rowMask = (Instr.sysAddr 0#12).rowMatch ∧ 0x00E1#16 ≠ 0x00E0#16 ∧
      0x00E1#16 ≠ 0x00EE#16) := by decide
theorem witness_StepRunsDecodedInstruction :
    (start 0x6A5C).run = .running ∧ decodeWord (start 0x6A5C).fetchWord = .ok (.ldVxByte 0xA#4 0x5C#8) := by
  decide +kernel
theorem witness_IllegalWordRecordsDecodeFailure :
    (start 0x5121).run = .running ∧ decodeWord (start 0x5121).fetchWord = .error (.family5 0x5121#16) := by
  decide +kernel
theorem witness_FaultedBlockTakesNoStep :
    ({ start 0x5121 with run := .faulted .decodeFailure 0x200#16 0x5121#16 } : State).run =
      .faulted .decodeFailure 0x200#16 0x5121#16 := rfl
/-- One step of each cause. -/
theorem witness_FaultingStepChangesOnlyRun :
    sees (start 0x5121) (fun t => decide (t.run ≠ .running)) = some true ∧
    sees (start 0x00EE) (fun t => decide (t.run ≠ .running)) = some true ∧
    sees { start 0x2300 with sp := 15#8 } (fun t => decide (t.run ≠ .running)) = some true := by decide +kernel

theorem reset_stateOk : StateOk State.reset := ⟨rfl, by decide, Nat.le_refl 0⟩
theorem reset_inv : Inv State.reset := ⟨reset_stateOk, trivial⟩
theorem witness_StepKeepsInvariant : Inv State.reset ∧ ∃ t, step State.reset = .next t :=
  ⟨reset_inv, State.reset.jump 0x0000#16, reset_step⟩
/-- Every operation is accepted from the reset state. -/
theorem witness_HostOperationsKeepStateOk :
    StateOk State.reset ∧ (∃ p, State.reset.perform (.reset {}) = .next p) ∧
    (∃ p, State.reset.perform (.loadRom [0x00#8]) = .next p) ∧ (∃ p, State.reset.perform .step = .next p) ∧
    (∃ p, State.reset.perform (.setKey (some 15)) = .next p) ∧ (∃ p, State.reset.perform .snapshot = .next p) ∧
    (∃ p, State.reset.perform .status = .next p) :=
  ⟨reset_stateOk, ⟨_, rfl⟩, ⟨_, rfl⟩, ⟨_, congrArg withDone reset_step⟩, ⟨_, rfl⟩, ⟨_, rfl⟩,
    ⟨_, rfl⟩⟩

/-- The reset state and the same with other bits 15..12 in PC and `I`, one that steps; and two faulted ones. -/
theorem witness_HighAddressBitsUnobservable :
    SameLow12 State.reset { State.reset with pc := 0x1200#16, i := 0xF000#16 } ∧ (∃ t, step State.reset = .next t) ∧
    SameLow12 { State.reset with run := .faulted .decodeFailure 0x0200#16 0#16 }
      { State.reset with run := .faulted .decodeFailure 0x1200#16 0#16 } ∧
    step { State.reset with run := .faulted .decodeFailure 0x0200#16 0#16 } = .fault .stepWhileFaulted := by
  refine ⟨⟨rfl, by decide, by decide, fun _ => rfl, rfl, rfl, trivial, rfl, rfl, rfl, ⟨rfl, rfl⟩, rfl⟩,
    ⟨State.reset.jump 0x0000#16, reset_step⟩,
    ⟨rfl, rfl, rfl, fun _ => rfl, rfl, rfl, ⟨rfl, by decide, rfl⟩, rfl, rfl, rfl, ⟨rfl, rfl⟩, rfl⟩, rfl⟩
/-- Two states that differ in slot 0 and in a slot above `SP`, one that steps; and two that stop. -/
theorem witness_DeadStackSlotsUnobservable :
    SameLiveStack State.reset { State.reset with stack := (State.reset.stack.set 0 7#16).set 5 9#16 } ∧
    (∃ t, step State.reset = .next t) ∧
    SameLiveStack { State.reset with run := .faulted .stackUnderflow 0x0200#16 0x00EE#16 }
      { State.reset with
        run := .faulted .stackUnderflow 0x0200#16 0x00EE#16, stack := State.reset.stack.set 0 7#16 } ∧
    step { State.reset with run := .faulted .stackUnderflow 0x0200#16 0x00EE#16 } = .fault .stepWhileFaulted := by
  refine ⟨⟨rfl, fun k h1 h2 => absurd (Nat.le_trans h1 h2) (by decide)⟩,
    ⟨State.reset.jump 0x0000#16, reset_step⟩,
    ⟨rfl, fun k h1 h2 => absurd (Nat.le_trans h1 h2) (by decide)⟩, rfl⟩
/-- Steps that push, pop and leave `SP`. -/
theorem witness_SlotZeroNeverWritten :
    sees (start 0x2300) (fun t => t.sp) = some 1#8 ∧ sees { start 0x00EE with sp := 1#8 } (fun t => t.sp) = some 0#8 ∧
    sees (start 0x1200) (fun t => t.sp) = some 0#8 := by decide +kernel
/-- An ALU instruction and a register its row does not name; FX65 just below the first register it keeps. -/
theorem witness_OnlyListedInstructionsWriteRegisters :
    (∃ t, exec (.addVxVy 0x1#4 0x2#4) State.reset = .next t) ∧ mayWriteReg (.addVxVy 0x1#4 0x2#4) 0x2#4 = false ∧
    (∃ t, exec (.ldVxMem 0x2#4) State.reset = .next t) ∧ mayWriteReg (.ldVxMem 0x2#4) 0x3#4 = false ∧
    mayWriteReg (.ldVxMem 0x2#4) 0x2#4 = true := ⟨⟨_, rfl⟩, by decide, ⟨_, rfl⟩, by decide, by decide⟩
theorem witness_OnlyClsAndDrwChangeFramebuffer :
    (∃ t, exec (.jpAddr 0x200#12) State.reset = .next t) ∧ Instr.jpAddr 0x200#12 ≠ .cls ∧
      ∀ x y n, Instr.jpAddr 0x200#12 ≠ .drw x y n := ⟨⟨_, rfl⟩, by decide, by simp⟩
/-- A form that does not write the stack (RET among them), and a CALL for the clause on readers. -/
theorem witness_OnlyCallWritesAndOnlyRetReadsStack :
    ((∃ t, exec .ret { State.reset with sp := 1#8 } = .next t) ∧ ∀ nnn, Instr.ret ≠ .callAddr nnn) ∧
    (Instr.callAddr 0x300#12 ≠ .ret ∧ ∃ t, exec (.callAddr 0x300#12) State.reset = .next t) :=
  ⟨⟨⟨_, rfl⟩, by simp⟩, by decide, ⟨_, rfl⟩⟩
/-- 00E0 meets the premise of every clause at once. -/
theorem witness_EachPartHasItsWriters :
    (∃ t, exec .cls State.reset = .next t) ∧ (∀ x, Instr.cls ≠ .ldDtVx x) ∧ (∀ x, Instr.cls ≠ .ldBVx x) ∧
    (∀ x, Instr.cls ≠ .ldMemVx x) ∧ (∀ a, Instr.cls ≠ .ldIAddr a) ∧ (∀ x, Instr.cls ≠ .addIVx x) ∧
    (∀ x, Instr.cls ≠ .ldFVx x) ∧ (∀ x kk, Instr.cls ≠ .rndVxByte x kk) ∧ (∀ x, Instr.cls ≠ .ldVxDt x) :=
  ⟨⟨_, rfl⟩, by simp, by simp, by simp, by simp, by simp, by simp, by simp, by simp⟩
/-- A jump, a taken skip, a plain advance, and a fault. -/
theorem witness_PcMovesInOneOfThreeWays :
    State.reset.run = .running ∧
    (∃ t, exec (.jpAddr 0x300#12) State.reset = .next t ∧ t.run = .running ∧ jumpTarget State.reset (.jpAddr 0x300#12) ≠ none) ∧
    (∃ t, exec (.seVxByte 0#4 0#8) State.reset = .next t ∧ t.run = .running ∧ t.pc = 0x204#16) ∧
    (∃ t, exec (.ldVxByte 0#4 0#8) State.reset = .next t ∧ t.run = .running ∧ t.pc = 0x202#16) ∧
    (∃ t, exec .ret State.reset = .next t ∧ t.run ≠ .running) :=
  ⟨rfl, ⟨_, rfl, rfl, by decide⟩, ⟨_, rfl, rfl, by decide⟩, ⟨_, rfl, rfl, by decide⟩, ⟨_, rfl, by decide⟩⟩
theorem witness_EveryAddressIsMasked :
    0xFFFF#16 &&& 0x0FFF#16 = 0x0FFF#16 &&& 0x0FFF#16 ∧ 0x1200#16 &&& 0x0FFF#16 = 0x0200#16 &&& 0x0FFF#16 := by decide
/-- Equal and unequal masked addresses, at the top of the space and where it wraps. -/
theorem witness_ReadAfterWriteAtMaskedAddress :
    0x1000#16 &&& 0x0FFF#16 = 0x0000#16 &&& 0x0FFF#16 ∧ 0x0FFF#16 &&& 0x0FFF#16 ≠ 0x1000#16 &&& 0x0FFF#16 := by decide
theorem witness_FetchWrapsAtTopOfMemory :
    ({ State.reset with pc := 0x0FFF#16 } : State).pc &&& 0x0FFF#16 = 0x0FFF#16 ∧
    ({ State.reset with pc := 0xFFFF#16 } : State).pc &&& 0x0FFF#16 = 0x0FFF#16 := by decide
theorem witness_RetPopsReturnAddress :
    (({ State.reset with sp := 1#8 } : State).sp.toNat = (1 : Fin 16).val ∧ 1 ≤ (1 : Fin 16).val) ∧
    (({ State.reset with sp := 15#8 } : State).sp.toNat = (15 : Fin 16).val ∧ 1 ≤ (15 : Fin 16).val) := by decide
theorem witness_RetWithoutSlotFaults :
    State.reset.sp = 0#8 ∧ 16 ≤ ({ State.reset with sp := 16#8 } : State).sp.toNat ∧
    exec .ret { State.reset with sp := 16#8 } = .fault .stackSlotAbsent := ⟨rfl, by decide, rfl⟩
theorem witness_SysJumpsAndPushesNothing :
    (fieldOp 0x0000#16 = 0x0#4 ∧ 0x0000#16 ≠ 0x00E0#16 ∧ 0x0000#16 ≠ 0x00EE#16) ∧
    (fieldOp 0x00E1#16 = 0x0#4 ∧ 0x00E1#16 ≠ 0x00E0#16 ∧ 0x00E1#16 ≠ 0x00EE#16) := by decide
theorem witness_JpJumps : fieldOp 0x1ABC#16 = 0x1#4 ∧ State.reset.pc.toNat = (0x200#12).toNat := by decide
theorem witness_CallPushesAndJumps :
    fieldOp 0x2300#16 = 0x2#4 ∧ State.reset.sp.toNat < 15 ∧ ({ State.reset with sp := 14#8 } : State).sp.toNat < 15 := by
  decide
theorem witness_CallOnFullStackFaults :
    15 ≤ ({ State.reset with sp := 15#8 } : State).sp.toNat ∧ 15 ≤ ({ State.reset with sp := 255#8 } : State).sp.toNat := by
  decide
/-- The call into the last slot, and the state right after it as the later state. -/
theorem witness_RetUndoesCall :
    ({ State.reset with sp := 14#8 } : State).sp.toNat < 15 ∧
    ∃ t u, exec (.callAddr 0x300#12) { State.reset with sp := 14#8 } = .next t ∧ u = t.setV 0x1#4 0x07#8 ∧
      u.stack = t.stack ∧ u.sp = t.sp := ⟨by decide, _, _, rfl, rfl, rfl, rfl⟩
theorem witness_ImmediateSkips : fieldOp 0x3342#16 = 0x3#4 ∧ fieldOp 0x4342#16 = 0x4#4 := by decide
theorem witness_SkipIfRegistersEqual :
    (fieldOp 0x5120#16 = 0x5#4 ∧ fieldN 0x5120#16 = 0x0#4) ∧ (fieldOp 0x5121#16 = 0x5#4 ∧ fieldN 0x5121#16 ≠ 0x0#4) := by
  decide
theorem witness_SkipIfRegistersDiffer :
    (fieldOp 0x9120#16 = 0x9#4 ∧ fieldN 0x9120#16 = 0x0#4) ∧ (fieldOp 0x912F#16 = 0x9#4 ∧ fieldN 0x912F#16 ≠ 0x0#4) := by
  decide
theorem witness_ImmediateLoadAndAdd : fieldOp 0x6A5C#16 = 0x6#4 ∧ fieldOp 0x7003#16 = 0x7#4 := by decide
theorem witness_CopyAndBitwise :
    (fieldOp 0x8120#16 = 0x8#4 ∧ fieldN 0x8120#16 = 0x0#4) ∧ (fieldOp 0x8121#16 = 0x8#4 ∧ fieldN 0x8121#16 = 0x1#4) ∧
    (fieldOp 0x8122#16 = 0x8#4 ∧ fieldN 0x8122#16 = 0x2#4) ∧ (fieldOp 0x8123#16 = 0x8#4 ∧ fieldN 0x8123#16 = 0x3#4) := by
  decide
theorem witness_AddSetsCarry : (fieldOp 0x8124#16 = 0x8#4 ∧ fieldN 0x8124#16 = 0x4#4) ∧ 0x1#4 ≠ 0xF#4 := by decide
theorem witness_SubSetsNotBorrow : (fieldOp 0x8125#16 = 0x8#4 ∧ fieldN 0x8125#16 = 0x5#4) ∧ 0x1#4 ≠ 0xF#4 := by decide
theorem witness_SubnSetsStrictlyAbove : (fieldOp 0x8127#16 = 0x8#4 ∧ fieldN 0x8127#16 = 0x7#4) ∧ 0x1#4 ≠ 0xF#4 := by
  decide
theorem witness_ShiftsInPlace :
    (fieldOp 0x8126#16 = 0x8#4 ∧ fieldN 0x8126#16 = 0x6#4) ∧ (fieldOp 0x812E#16 = 0x8#4 ∧ fieldN 0x812E#16 = 0xE#4) ∧
    0x1#4 ≠ 0xF#4 := by decide
theorem witness_IndexWrites :
    fieldOp 0xA2F0#16 = 0xA#4 ∧ (fieldOp 0xF41E#16 = 0xF#4 ∧ fieldKK 0xF41E#16 = 0x1E#8) ∧
    (fieldOp 0xF029#16 = 0xF#4 ∧ fieldKK 0xF029#16 = 0x29#8) := by decide
theorem witness_JumpPlusV0 : fieldOp 0xB123#16 = 0xB#4 := by decide
theorem witness_RandomByteIsMaskedAndDrawnOnce :
    fieldOp 0xC30F#16 = 0xC#4 ∧
    ({ State.reset with rng := { seed := 0, drawn := 0, supplied := [0xB7#8] } } : State).rng.supplied = 0xB7#8 :: [] := by
  decide
/-- A draw that turns a lit cell off, and one that leaves every lit cell lit. -/
theorem witness_DrawXorsSpriteAndReportsCollision :
    fieldOp 0xD015#16 = 0xD#4 ∧
    (∃ t, exec (.drw 0#4 0#4 1#4) (lit State.reset 0#5 0#6) = .next t ∧ ∃ r c,
      (lit State.reset 0#5 0#6).fb.cell r c = true ∧ t.fb.cell r c = false) ∧
    (∃ t, exec (.drw 0#4 0#4 1#4) State.reset = .next t ∧ ∀ r c, State.reset.fb.cell r c = true → t.fb.cell r c = true) := by
  refine ⟨by decide, ⟨_, rfl, 0#5, 0#6, by decide +kernel, by decide +kernel⟩, ⟨_, rfl, fun r c h => ?_⟩⟩
  exact absurd h (by simp [State.reset, FrameBuffer.cell])
/-- Two draws of the glyph 0, whose first pixel falls on a dark cell. -/
theorem witness_DrawingTwiceRestoresScreen :
    0x0#4 ≠ 0xF#4 ∧ (∃ t u, exec (.drw 0#4 0#4 5#4) State.reset = .next t ∧ exec (.drw 0#4 0#4 5#4) t = .next u) ∧
    ∃ r c, State.reset.fb.cell r c = false ∧
      spritePixel State.reset State.reset.i (State.reset.getV 0#4) (State.reset.getV 0#4) (5#4).toNat r c = true :=
  ⟨by decide, ⟨_, _, rfl, rfl⟩, 0#5, 0#6, by decide +kernel, by decide +kernel⟩
theorem witness_KeySkips :
    (fieldOp 0xE29E#16 = 0xE#4 ∧ fieldKK 0xE29E#16 = 0x9E#8) ∧ (fieldOp 0xE2A1#16 = 0xE#4 ∧ fieldKK 0xE2A1#16 = 0xA1#8) := by
  decide
theorem witness_TimerSetCapturesNow :
    (fieldOp 0xF115#16 = 0xF#4 ∧ fieldKK 0xF115#16 = 0x15#8) ∧ State.reset.getV 0x1#4 = 0x00#8 ∧
    ∃ t u : State, exec (.ldDtVx 0x1#4) State.reset = .next t ∧ u.tInit = t.tInit := by
  refine ⟨by decide, by decide, _, State.reset, rfl, by decide⟩
theorem witness_TimerReadSubtractsWholeTicks :
    (fieldOp 0xF307#16 = 0xF#4 ∧ fieldKK 0xF307#16 = 0x07#8) ∧ State.reset.tStart ≤ State.reset.clock.last ∧
    ({ State.reset with tStart := 5, clock := { last := 9, reads := 1, supplied := [] } } : State).tStart ≤ 9 := by decide
/-- What lies between the two timer instructions: PC elsewhere, a register written, and the clock five later. -/
def later (t : State) : State :=
  { (t.setV 5#4 1#8).jump 0x300#16 with clock := { t.clock with last := t.clock.last + 5 } }

theorem later_timer (t : State) :
    (later t).tStart = t.tStart ∧ (later t).tInit = t.tInit ∧ t.clock.last ≤ (later t).clock.last :=
  ⟨rfl, rfl, Nat.le_add_right _ _⟩

/-- Two readings; and a set with a reading one nanosecond before, and at, the first tick; each with a later state in
between. -/
theorem witness_TimerNeverRisesAndExpires :
    (∃ t s' u : State, exec (.ldVxDt 1#4) State.reset = .next t ∧ s' = later t ∧ s'.tStart = t.tStart ∧
      s'.tInit = t.tInit ∧ t.clock.last ≤ s'.clock.last ∧ exec (.ldVxDt 2#4) s' = .next u) ∧
    (∀ d : Nat, ∃ t u : State,
      exec (.ldDtVx 1#4) { State.reset with clock := { last := 0, reads := 0, supplied := [0, d] } } = .next t ∧
      (later t).tStart = t.tStart ∧ (later t).tInit = t.tInit ∧ t.clock.last ≤ (later t).clock.last ∧
      exec (.ldVxDt 2#4) (later t) = .next u ∧ u.clock.last - t.clock.last = 5 + d) ∧
    5 + 15999994 < 16000000 ∧ (State.reset.getV 1#4).toNat * 16000000 ≤ 5 + 15999995 :=
  ⟨⟨_, _, _, rfl, rfl, rfl, rfl, (later_timer _).2.2, rfl⟩,
    fun d => ⟨_, _, rfl, rfl, rfl, (later_timer _).2.2, rfl, by
      show 0 + 0 + 5 + d - (0 + 0) = 5 + d; omega⟩, by decide, by decide⟩
theorem witness_KeyWaitNeverBlocks :
    (fieldOp 0xF20A#16 = 0xF#4 ∧ fieldKK 0xF20A#16 = 0x0A#8) ∧
    ({ State.reset with key := some 0xF#4 } : State).key = some 0xF#4 ∧ State.reset.key = none := by decide
theorem witness_SoundTimerIsNoOp : fieldOp 0xF518#16 = 0xF#4 ∧ fieldKK 0xF518#16 = 0x18#8 := by decide
theorem witness_BcdDigitsAreStored :
    (fieldOp 0xF533#16 = 0xF#4 ∧ fieldKK 0xF533#16 = 0x33#8) ∧ maskAddr 0x003#16 ≠ maskAddr State.reset.i ∧
    maskAddr 0x003#16 ≠ maskAddr (State.reset.i + 1#16) ∧ maskAddr 0x003#16 ≠ maskAddr (State.reset.i + 2#16) := by decide
/-- The first and last register stored, and the first byte after them. -/
theorem witness_RegistersAreStoredAndIndexAdvances :
    (fieldOp 0xF255#16 = 0xF#4 ∧ fieldKK 0xF255#16 = 0x55#8) ∧ (0x0#4).toNat ≤ (0x2#4).toNat ∧ (0x2#4).toNat ≤ (0x2#4).toNat ∧
    ∀ k : Nibble, k.toNat ≤ (0x2#4).toNat → maskAddr 0x003#16 ≠ maskAddr (State.reset.i + k.setWidth 16) := by decide
theorem witness_RegistersAreLoadedAndIndexKept :
    (fieldOp 0xFF65#16 = 0xF#4 ∧ fieldKK 0xFF65#16 = 0x65#8) ∧ (0x0#4).toNat ≤ (0xF#4).toNat ∧
    (0xF#4).toNat ≤ (0xF#4).toNat := by decide
theorem witness_ResetValuesOfTheDecisions : 80 ≤ maskAddr 0x0050#16 ∧ 80 ≤ maskAddr 0xFFFF#16 := by decide
/-- Images of each boundary length. -/
theorem witness_RomIsLoadedAtProgramBase :
    (1 ≤ (List.replicate 1 0x00#8).length ∧ (List.replicate 1 0x00#8).length ≤ 3584) ∧
    (1 ≤ (List.replicate 3584 0x00#8).length ∧ (List.replicate 3584 0x00#8).length ≤ 3584) ∧
    (List.replicate 0 0x00#8).length = 0 ∧ 3584 < (List.replicate 3585 0x00#8).length := by
  simp only [List.length_replicate]; decide
theorem witness_HostKeyAndViews : 0 ≤ 15 ∧ 15 ≤ 15 ∧ 15 < 16 := by decide

end Sys2Proof.Tests
end

section
/-! SUPPORT. The frame of every operation and of every instruction: which parts of the state it may change, as
`SameBut` says it. -/

namespace Sys2Proof.Machine

/-! ### Rules of `SameBut` -/

theorem SameBut.mono {ps qs : List Part} {s t : State} (h : SameBut ps s t) (hsub : ps ⊆ qs) : SameBut qs s t where
  reg j hj := h.reg j (fun hp => hj (hsub hp))
  index hq := h.index (fun hp => hq (hsub hp))
  pc hq := h.pc (fun hp => hq (hsub hp))
  stack hq := h.stack (fun hp => hq (hsub hp))
  sp hq := h.sp (fun hp => hq (hsub hp))
  rng hq := h.rng (fun hp => hq (hsub hp))
  run hq := h.run (fun hp => hq (hsub hp))
  mem hq := h.mem (fun hp => hq (hsub hp))
  fb hq := h.fb (fun hp => hq (hsub hp))
  key hq := h.key (fun hp => hq (hsub hp))
  timer hq := h.timer (fun hp => hq (hsub hp))
  clock hq := h.clock (fun hp => hq (hsub hp))

/-- One update after another changes at most what the two change. -/
theorem SameBut.trans {ps qs : List Part} {s t u : State} (h : SameBut ps s t) (h' : SameBut qs t u) :
    SameBut (ps ++ qs) s u := by
  have h := h.mono (List.subset_append_left ps qs)
  have h' := h'.mono (List.subset_append_right ps qs)
  exact
    { reg := fun j hj => (h'.reg j hj).trans (h.reg j hj)
      index := fun hp => (h'.index hp).trans (h.index hp)
      pc := fun hp => (h'.pc hp).trans (h.pc hp)
      stack := fun hp => (h'.stack hp).trans (h.stack hp)
      sp := fun hp => (h'.sp hp).trans (h.sp hp)
      rng := fun hp => (h'.rng hp).trans (h.rng hp)
      run := fun hp => (h'.run hp).trans (h.run hp)
      mem := fun hp a => (h'.mem hp a).trans (h.mem hp a)
      fb := fun hp r c => (h'.fb hp r c).trans (h.fb hp r c)
      key := fun hp => (h'.key hp).trans (h.key hp)
      timer := fun hp => ⟨(h'.timer hp).1.trans (h.timer hp).1, (h'.timer hp).2.trans (h.timer hp).2⟩
      clock := fun hp => (h'.clock hp).trans (h.clock hp) }

/-! ### The frame of each operation -/

section
variable (s : State)

theorem State.sameBut_setV (x : Nibble) (b : Byte) : SameBut [.reg x] s (s.setV x b) := by
  constructor <;> simp +contextual
theorem State.sameBut_setI (a : Word) : SameBut [.index] s (s.setI a) := by constructor <;> simp
theorem State.sameBut_jump (a : Word) : SameBut [.pc] s (s.jump a) := by constructor <;> simp
theorem State.sameBut_advance : SameBut [.pc] s s.advance := by constructor <;> simp
theorem State.sameBut_skipIf (c : Bool) : SameBut [.pc] s (s.skipIf c) := by constructor <;> simp
theorem State.sameBut_push (a : Word) : SameBut [.stack, .sp] s (s.push a) := by constructor <;> simp
theorem State.sameBut_drop : SameBut [.sp] s s.drop := by constructor <;> simp
theorem State.sameBut_raise (c : FaultCause) (w : Word) : SameBut [.run] s (s.raise c w) := by constructor <;> simp
theorem State.sameBut_timerSet (b : Byte) : SameBut [.timer, .clock] s (s.timerSet b) := by constructor <;> simp
theorem State.sameBut_readClock : SameBut [.clock] s s.readClock := by constructor <;> simp
theorem State.sameBut_drawByte : SameBut [.rng] s s.drawByte := by constructor <;> simp
theorem State.sameBut_withFb (fb : FrameBuffer) : SameBut [.fb] s { s with fb := fb } := by constructor <;> simp
theorem State.sameBut_memWrite (a : Word) (b : Byte) : SameBut [.mem] s (s.memWrite a b) := by constructor <;> simp
theorem State.sameBut_storeRegs (a : Word) (n : Nat) : SameBut [.mem] s (s.storeRegs a n) := by constructor <;> simp

/-- What an update changes, and PC. -/
theorem SameBut.advance {ps : List Part} {s t : State} (h : SameBut ps s t) : SameBut (ps ++ [.pc]) s t.advance :=
  h.trans t.sameBut_advance

theorem State.sameBut_setResultThenFlag (x : Nibble) (r : Byte) (f : Bool) :
    SameBut [.reg x, .reg vf] s (s.setResultThenFlag x r f) :=
  (s.sameBut_setV x r).trans ((s.setV x r).sameBut_setV vf (flagByte f))

theorem State.sameBut_setFlagThenShift (n x : Nibble) (r : Byte) (f : Bool) :
    SameBut [.reg vf, .reg x] s (s.setFlagThenShift n x r f) :=
  (s.sameBut_setV vf (flagByte f)).trans ((s.setV vf (flagByte f)).sameBut_setV x _)

theorem mem_firstRegs {n : Nat} (hn : n ≤ 16) (j : Nibble) : Part.reg j ∈ firstRegs n ↔ j.toNat < n := by
  simp only [firstRegs, List.mem_map, List.mem_range, Part.reg.injEq]
  constructor
  · rintro ⟨k, hk, rfl⟩
    rw [BitVec.toNat_ofNat]
    omega
  · exact fun hj => ⟨j.toNat, hj, by simp⟩

theorem State.sameBut_loadRegs (a : Word) {n : Nat} (hn : n ≤ 16) : SameBut (firstRegs n) s (s.loadRegs a n) := by
  constructor <;> simp +contextual [mem_firstRegs hn, State.getV_loadRegs s a n hn]
end

/-! ### The instructions with more than one way to go -/

theorem exec_ret_underflow {s : State} (hsp : s.sp = 0#8) :
    exec .ret s = .next (s.raise .stackUnderflow (encode .ret)) := by
  simp [exec, execRet, hsp]

theorem exec_ret_pop {s : State} {ra : Word} (hsp : s.sp ≠ 0#8) (htop : s.top? = some ra) :
    exec .ret s = .next (s.drop.jump ra) := by
  simp [exec, execRet, hsp, htop]

/-- 00EE raises StackUnderflow at `SP = 0`, and else goes to the slot on top (40_control.md R101). -/
theorem exec_ret_cases {s t : State} (h : exec .ret s = .next t) :
    (s.sp = 0#8 ∧ t = s.raise .stackUnderflow (encode .ret)) ∨
      (s.sp ≠ 0#8 ∧ ∃ ra, s.top? = some ra ∧ t = s.drop.jump ra) := by
  by_cases hsp : s.sp = 0#8
  · rw [exec_ret_underflow hsp] at h
    exact Or.inl ⟨hsp, (Host.Outcome.next.inj h).symm⟩
  · cases htop : s.top? with
    | none => simp [exec, execRet, hsp, htop] at h
    | some ra =>
      rw [exec_ret_pop hsp htop] at h
      exact Or.inr ⟨hsp, ra, rfl, (Host.Outcome.next.inj h).symm⟩

theorem exec_callAddr_overflow {s : State} (nnn : Addr) (hsp : 15#8 ≤ s.sp) :
    exec (.callAddr nnn) s = .next (s.raise .stackOverflow (encode (.callAddr nnn))) := by
  simp [exec, execCallAddr, hsp]

theorem exec_callAddr_push {s : State} (nnn : Addr) (hsp : ¬ 15#8 ≤ s.sp) :
    exec (.callAddr nnn) s = .next ((s.push (s.pc + 2#16)).jump (addrOperand nnn)) := by
  simp [exec, execCallAddr, hsp]

/-- 2NNN raises StackOverflow at `SP >= 15`, and else pushes and jumps (40_control.md R104). -/
theorem exec_callAddr_cases {nnn : Addr} {s t : State} (h : exec (.callAddr nnn) s = .next t) :
    (15#8 ≤ s.sp ∧ t = s.raise .stackOverflow (encode (.callAddr nnn))) ∨
      (¬ 15#8 ≤ s.sp ∧ t = (s.push (s.pc + 2#16)).jump (addrOperand nnn)) := by
  by_cases hsp : 15#8 ≤ s.sp
  · rw [exec_callAddr_overflow nnn hsp] at h
    exact Or.inl ⟨hsp, (Host.Outcome.next.inj h).symm⟩
  · rw [exec_callAddr_push nnn hsp] at h
    exact Or.inr ⟨hsp, (Host.Outcome.next.inj h).symm⟩

theorem exec_ldVxK_some {s : State} {c : Nibble} (x : Nibble) (hkey : s.key = some c) :
    exec (.ldVxK x) s = .next (s.setV x (c.setWidth 8)).advance := by
  simp [exec, execLdVxK, State.keyTake, hkey]

theorem exec_ldVxK_none {s : State} (x : Nibble) (hkey : s.key = none) : exec (.ldVxK x) s = .next s.advance := by
  simp [exec, execLdVxK, State.keyTake, hkey, fx0aHoldsPc]

/-- FX0A takes the latched code, or only advances PC (45_fx.md R184). -/
theorem exec_ldVxK_cases {x : Nibble} {s t : State} (h : exec (.ldVxK x) s = .next t) :
    (∃ c, s.key = some c ∧ t = (s.setV x (c.setWidth 8)).advance) ∨ (s.key = none ∧ t = s.advance) := by
  cases hkey : s.key with
  | some c =>
    rw [exec_ldVxK_some x hkey] at h
    exact Or.inl ⟨c, rfl, (Host.Outcome.next.inj h).symm⟩
  | none =>
    rw [exec_ldVxK_none x hkey] at h
    exact Or.inr ⟨rfl, (Host.Outcome.next.inj h).symm⟩

/-! ### The frame of each instruction -/

/-- The parts of the state an instruction may change, the run state of a fault among them (10_state.md R22–R37). -/
def mayChange : Instr → List Part
  | .cls => [.fb, .pc]
  | .ret => [.sp, .pc, .run]
  | .callAddr _ => [.stack, .sp, .pc, .run]
  | .sysAddr _ | .jpAddr _ | .jpV0Addr _ | .ldStVx => [.pc]
  | .seVxByte _ _ | .sneVxByte _ _ | .seVxVy _ _ | .sneVxVy _ _ | .skpVx _ | .sknpVx _ => [.pc]
  | .ldVxByte x _ | .addVxByte x _ | .ldVxVy x _ | .orVxVy x _ | .andVxVy x _ | .xorVxVy x _ | .ldVxK x =>
    [.reg x, .pc]
  | .addVxVy x _ | .subVxVy x _ | .subnVxVy x _ => [.reg x, .reg vf, .pc]
  | .shrVx x | .shlVx x => [.reg vf, .reg x, .pc]
  | .ldIAddr _ | .addIVx _ | .ldFVx _ => [.index, .pc]
  | .rndVxByte x _ => [.rng, .reg x, .pc]
  | .drw _ _ _ => [.fb, .reg vf, .pc]
  | .ldVxDt x => [.clock, .reg x, .pc]
  | .ldDtVx _ => [.timer, .clock, .pc]
  | .ldBVx _ => [.mem, .pc]
  | .ldMemVx _ => [.mem, .index, .pc]
  | .ldVxMem x => firstRegs (x.toNat + 1) ++ [.pc]

/-- An instruction changes at most the parts of `mayChange`. -/
theorem exec_sameBut {i : Instr} {s t : State} (h : exec i s = .next t) : SameBut (mayChange i) s t := by
  cases i with
  | cls =>
    obtain rfl := Host.Outcome.next.inj h
    exact (s.sameBut_withFb _).advance
  | ret =>
    obtain ⟨-, rfl⟩ | ⟨-, ra, -, rfl⟩ := exec_ret_cases h
    · exact (s.sameBut_raise _ _).mono (by simp [mayChange])
    · exact (s.sameBut_drop.trans (s.drop.sameBut_jump ra)).mono (by simp [mayChange])
  | callAddr nnn =>
    obtain ⟨-, rfl⟩ | ⟨-, rfl⟩ := exec_callAddr_cases h
    · exact (s.sameBut_raise _ _).mono (by simp [mayChange])
    · exact ((s.sameBut_push _).trans (State.sameBut_jump _ _)).mono (by simp [mayChange])
  | sysAddr nnn | jpAddr nnn | jpV0Addr nnn =>
    obtain rfl := Host.Outcome.next.inj h
    exact s.sameBut_jump _
  | ldStVx =>
    obtain rfl := Host.Outcome.next.inj h
    exact s.sameBut_advance
  | seVxByte x kk | sneVxByte x kk | seVxVy x y | sneVxVy x y | skpVx x | sknpVx x =>
    obtain rfl := Host.Outcome.next.inj h
    exact s.sameBut_skipIf _
  | ldVxByte x kk | addVxByte x kk | ldVxVy x y | orVxVy x y | andVxVy x y | xorVxVy x y =>
    obtain rfl := Host.Outcome.next.inj h
    exact (s.sameBut_setV x _).advance
  | ldVxK x =>
    obtain ⟨c, -, rfl⟩ | ⟨-, rfl⟩ := exec_ldVxK_cases h
    · exact (s.sameBut_setV x _).advance
    · exact s.sameBut_advance.mono (by simp [mayChange])
  | addVxVy x y | subVxVy x y | subnVxVy x y =>
    obtain rfl := Host.Outcome.next.inj h
    exact (s.sameBut_setResultThenFlag x _ _).advance
  | shrVx x | shlVx x =>
    obtain rfl := Host.Outcome.next.inj h
    exact (s.sameBut_setFlagThenShift _ x _ _).advance
  | ldIAddr nnn | addIVx x | ldFVx x =>
    obtain rfl := Host.Outcome.next.inj h
    exact (s.sameBut_setI _).advance
  | rndVxByte x kk =>
    obtain rfl := Host.Outcome.next.inj h
    exact (s.sameBut_drawByte.trans (s.drawByte.sameBut_setV x _)).advance
  | drw x y n =>
    obtain rfl := Host.Outcome.next.inj h
    exact ((s.sameBut_withFb _).trans (State.sameBut_setV _ vf _)).advance
  | ldVxDt x =>
    obtain rfl := Host.Outcome.next.inj h
    exact (s.sameBut_readClock.trans (s.readClock.sameBut_setV x _)).advance
  | ldDtVx x =>
    obtain rfl := Host.Outcome.next.inj h
    exact (s.sameBut_timerSet _).advance
  | ldBVx x =>
    obtain rfl := Host.Outcome.next.inj h
    have hmem := ((s.sameBut_memWrite s.i (hundreds (s.getV x))).trans
      (State.sameBut_memWrite _ (s.i + 1#16) (tens (s.getV x)))).trans
      (State.sameBut_memWrite _ (s.i + 2#16) (ones (s.getV x)))
    exact hmem.advance.mono (by simp [mayChange])
  | ldMemVx x =>
    obtain rfl := Host.Outcome.next.inj h
    exact ((s.sameBut_storeRegs s.i _).trans (State.sameBut_setI _ _)).advance
  | ldVxMem x =>
    obtain rfl := Host.Outcome.next.inj h
    exact (s.sameBut_loadRegs s.i (by have := x.isLt; omega)).advance

end Sys2Proof.Machine
end

section
/-! SUPPORT. Who changes each part of the state: the statements read off the frames (10_state.md R22–R35). -/

namespace Sys2Proof.Machine

/-! ### Which instructions have a part in `mayChange` -/

theorem mayWriteReg_of_mem {i : Instr} {j : Nibble} (h : Part.reg j ∈ mayChange i) : mayWriteReg i j = true := by
  cases i with
  | ldVxMem x =>
    have hx : x.toNat + 1 ≤ 16 := x.isLt
    have hj : j.toNat < x.toNat + 1 := by simpa [mayChange, mem_firstRegs hx] using h
    simpa [mayWriteReg] using Nat.le_of_lt_succ hj
  | _ => revert h; simp [mayChange, mayWriteReg, or_comm]

theorem fb_mem_mayChange {i : Instr} (h : Part.fb ∈ mayChange i) : i = .cls ∨ ∃ x y n, i = .drw x y n := by
  cases i <;> simp [mayChange, firstRegs] at h ⊢

theorem stack_mem_mayChange {i : Instr} (h : Part.stack ∈ mayChange i) : ∃ nnn, i = .callAddr nnn := by
  cases i <;> simp [mayChange, firstRegs] at h ⊢

theorem sp_mem_mayChange {i : Instr} (h : Part.sp ∈ mayChange i) : i = .ret ∨ ∃ nnn, i = .callAddr nnn := by
  cases i <;> simp [mayChange, firstRegs] at h ⊢

theorem key_not_mem_mayChange (i : Instr) : Part.key ∉ mayChange i := by
  cases i <;> simp [mayChange, firstRegs]

theorem timer_mem_mayChange {i : Instr} (h : Part.timer ∈ mayChange i) : ∃ x, i = .ldDtVx x := by
  cases i <;> simp [mayChange, firstRegs] at h ⊢

theorem mem_mem_mayChange {i : Instr} (h : Part.mem ∈ mayChange i) : (∃ x, i = .ldBVx x) ∨ ∃ x, i = .ldMemVx x := by
  cases i <;> simp [mayChange, firstRegs] at h ⊢

theorem index_mem_mayChange {i : Instr} (h : Part.index ∈ mayChange i) :
    (∃ a, i = .ldIAddr a) ∨ (∃ x, i = .addIVx x) ∨ (∃ x, i = .ldFVx x) ∨ ∃ x, i = .ldMemVx x := by
  cases i <;> simp [mayChange, firstRegs] at h ⊢

theorem rng_mem_mayChange {i : Instr} (h : Part.rng ∈ mayChange i) : ∃ x kk, i = .rndVxByte x kk := by
  cases i <;> simp [mayChange, firstRegs] at h ⊢

theorem clock_mem_mayChange {i : Instr} (h : Part.clock ∈ mayChange i) : (∃ x, i = .ldVxDt x) ∨ ∃ x, i = .ldDtVx x := by
  cases i <;> simp [mayChange, firstRegs] at h ⊢

/-! ### The snapshot -/

/-- Pieces of one length laid end to end: entry `c` of piece `r`. -/
theorem getElem?_flatMap_of_length {α β : Type} (f : α → List β) {n : Nat} (hf : ∀ a, (f a).length = n) (l : List α)
    (r : Nat) {c : Nat} (hc : c < n) : (l.flatMap f)[r * n + c]? = l[r]?.bind (fun a => (f a)[c]?) := by
  induction l generalizing r with
  | nil => simp
  | cons a rest ih =>
    rw [List.flatMap_cons]
    cases r with
    | zero =>
      have : c < (f a).length := by rwa [hf]
      simp [List.getElem?_append_left this]
    | succ r =>
      have hge : (f a).length ≤ (r + 1) * n + c := by rw [hf, Nat.succ_mul]; omega
      have hsub : (r + 1) * n + c - (f a).length = r * n + c := by rw [hf, Nat.succ_mul]; omega
      rw [List.getElem?_append_right hge, hsub, ih r]
      simp

theorem FrameBuffer.snapshot_length (fb : FrameBuffer) : fb.snapshot.length = 2048 := by
  simp [FrameBuffer.snapshot, List.length_flatMap, List.map_const']

theorem FrameBuffer.getElem?_snapshot (fb : FrameBuffer) (r : BitVec 5) (c : BitVec 6) :
    fb.snapshot[r.toNat * 64 + c.toNat]? = some (if fb.cell r c then 0x01#8 else 0x00#8) := by
  have hr : r.toNat < 32 := r.isLt
  have hc : c.toNat < 64 := c.isLt
  unfold FrameBuffer.snapshot FrameBuffer.cell
  rw [getElem?_flatMap_of_length _ (fun row => by simp) _ _ hc]
  simp [hr, hc]

theorem cell_reset (r : BitVec 5) (c : BitVec 6) : State.reset.fb.cell r c = false :=
  FrameBuffer.cell_clear State.reset.fb r c

/-! ### The statements -/

/-- Settles O16: a register that `mayWriteReg` leaves out is no part of `mayChange`. -/
theorem onlyListedInstructionsWriteRegisters : Obligations.OnlyListedInstructionsWriteRegisters := by
  intro i s t j h hj
  exact (exec_sameBut h).reg j (fun hm => by simp [mayWriteReg_of_mem hm] at hj)

/-- Settles O17: the snapshot by the length of its rows, the writers by the frame. -/
theorem onlyClsAndDrwChangeFramebuffer : Obligations.OnlyClsAndDrwChangeFramebuffer := by
  refine ⟨cell_reset, fun fb => ⟨fb.snapshot_length, fb.getElem?_snapshot⟩, fun i s t h hcls hdrw => ?_⟩
  have hfb : Part.fb ∉ mayChange i := fun hm => by
    obtain rfl | ⟨x, y, n, rfl⟩ := fb_mem_mayChange hm
    · exact hcls rfl
    · exact hdrw x y n rfl
  exact FrameBuffer.ext_cell ((exec_sameBut h).fb hfb)

/-- Settles O19: each part is in `mayChange` of the named instructions only. -/
theorem eachPartHasItsWriters : Obligations.EachPartHasItsWriters := by
  intro i s t h
  have frame := exec_sameBut h
  refine ⟨frame.key (key_not_mem_mayChange i), fun hdt => frame.timer ?_, fun hbcd hst => frame.mem ?_,
    fun hld hadd hfont hst => frame.index ?_, fun hrnd => frame.rng ?_, fun hget hset => frame.clock ?_⟩
  · exact fun hm => (timer_mem_mayChange hm).elim hdt
  · exact fun hm => (mem_mem_mayChange hm).elim (·.elim hbcd) (·.elim hst)
  · intro hm
    obtain ⟨a, e⟩ | ⟨x, e⟩ | ⟨x, e⟩ | ⟨x, e⟩ := index_mem_mayChange hm
    · exact hld a e
    · exact hadd x e
    · exact hfont x e
    · exact hst x e
  · exact fun hm => (rng_mem_mayChange hm).elim fun x hx => hx.elim (hrnd x)
  · exact fun hm => (clock_mem_mayChange hm).elim (·.elim hget) (·.elim hset)

end Sys2Proof.Machine
end

section
/-! SUPPORT. How an instruction moves PC, the stack and the run state, and the invariant of a run
(10_state.md R25, R30; 60_exceptions.md R205). -/

namespace Sys2Proof.Machine

/-! ### The ways an instruction ends -/

/-- Where an instruction leaves control: it raises a stack fault, returns, calls, jumps, skips or advances. -/
inductive ControlFlow (i : Instr) (s : State) : State → Prop
  | underflow (hi : i = .ret) (hsp : s.sp = 0#8) : ControlFlow i s (s.raise .stackUnderflow (encode i))
  | overflow (nnn : Addr) (hi : i = .callAddr nnn) (hsp : 15#8 ≤ s.sp) :
      ControlFlow i s (s.raise .stackOverflow (encode i))
  | ret (ra : Word) (hi : i = .ret) (hsp : s.sp ≠ 0#8) (htop : s.top? = some ra) : ControlFlow i s (s.drop.jump ra)
  | call (nnn : Addr) (hi : i = .callAddr nnn) (hsp : ¬ 15#8 ≤ s.sp) :
      ControlFlow i s ((s.push (s.pc + 2#16)).jump (addrOperand nnn))
  | jump (a : Word) (ha : jumpTarget s i = some a) : ControlFlow i s (s.jump a)
  | skip (hi : isSkip i = true) (hnone : jumpTarget s i = none) (test : Bool) : ControlFlow i s (s.skipIf test)
  | advance (hnone : jumpTarget s i = none) (u : State) (hpc : u.pc = s.pc) (hrun : u.run = s.run)
      (hstack : u.stack = s.stack) (hsp : u.sp = s.sp) : ControlFlow i s u.advance

/-- An instruction leaves control in one of the ways of `ControlFlow`. -/
theorem exec_controlFlow {i : Instr} {s t : State} (h : exec i s = .next t) : ControlFlow i s t := by
  cases i with
  | ret =>
    obtain ⟨hsp, rfl⟩ | ⟨hsp, ra, htop, rfl⟩ := exec_ret_cases h
    · exact .underflow rfl hsp
    · exact .ret ra rfl hsp htop
  | callAddr nnn =>
    obtain ⟨hsp, rfl⟩ | ⟨hsp, rfl⟩ := exec_callAddr_cases h
    · exact .overflow nnn rfl hsp
    · exact .call nnn rfl hsp
  | sysAddr nnn | jpAddr nnn | jpV0Addr nnn =>
    obtain rfl := Host.Outcome.next.inj h
    exact .jump _ rfl
  | seVxByte x kk | sneVxByte x kk | seVxVy x y | sneVxVy x y | skpVx x | sknpVx x =>
    obtain rfl := Host.Outcome.next.inj h
    exact .skip rfl rfl _
  | ldVxK x =>
    obtain ⟨c, -, rfl⟩ | ⟨-, rfl⟩ := exec_ldVxK_cases h
    · exact .advance rfl _ rfl rfl rfl rfl
    · exact .advance rfl s rfl rfl rfl rfl
  | _ =>
    obtain rfl := Host.Outcome.next.inj h
    exact .advance rfl _ (by simp) (by simp) (by simp) (by simp)

/-! ### PC and the call stack -/

/-- Settles O20: each way of `ControlFlow` moves PC in one of the three ways, or raises a fault and keeps it. -/
theorem pcMovesInOneOfThreeWays : Obligations.PcMovesInOneOfThreeWays := by
  intro i s t hrun h
  cases exec_controlFlow h with
  | underflow hi hsp | overflow nnn hi hsp => simp
  | ret ra hi hsp htop => simp [hi, jumpTarget, htop, hrun]
  | call nnn hi hsp => simp [hi, jumpTarget, addrOperand, hrun]
  | jump a ha => simp [ha, hrun]
  | skip hi hnone test => cases test <;> simp [hi, hnone, hrun]
  | advance hnone u hpc hrun' hstack hsp => simp [hnone, hpc, hrun', hrun]

/-- Settles O15: a push goes to slot `SP + 1`, which is not slot 0 below 15. -/
theorem slotZeroNeverWritten : Obligations.SlotZeroNeverWritten := by
  intro s t h
  obtain ⟨-, ⟨i, -, hexec⟩ | ⟨-, rfl⟩⟩ := step_cases h
  · cases exec_controlFlow hexec with
    | underflow hi hsp | overflow nnn hi hsp => simp
    | ret ra hi hsp htop => simp [hsp]
    | call nnn hi hsp =>
      have hslot : (s.sp + 1#8).toNat ≠ (0 : Fin 16).val := by simp; bv_omega
      have hpush := s.push_slot (s.pc + 2#16) 0
      rw [if_neg hslot] at hpush
      exact ⟨hpush, Or.inr (Or.inl rfl)⟩
    | jump a ha | skip hi hnone test => simp
    | advance hnone u hpc hrun hstack hsp => simp [hstack, hsp]
  · simp

/-! ### Decoding the two stack instructions -/

theorem decodeWord_eq_ret {w : Word} (h : decodeWord w = .ok .ret) : w = encode .ret := by
  unfold decodeWord decodeFamily0 decodeFamily8 decodeFamilyE decodeFamilyF at h
  (repeat' split at h) <;> simp_all [encode]

theorem decodeWord_eq_callAddr {w : Word} {nnn : Addr} (h : decodeWord w = .ok (.callAddr nnn)) :
    w = encode (.callAddr nnn) := by
  have hop : fieldOp w = 0x2#4 ∧ fieldNNN w = nnn := by
    unfold decodeWord decodeFamily0 decodeFamily8 decodeFamilyE decodeFamilyF at h
    (repeat' split at h) <;> simp_all
  obtain ⟨hop, rfl⟩ := hop
  exact (hop ▸ formNNN_fields w).symm

/-! ### The invariant -/

/-- An instruction keeps memory canonical, since only FX33 and FX55 write it, and they write masked addresses. -/
theorem exec_keeps_memWf {i : Instr} {s t : State} (hwf : s.mem.wf = true) (h : exec i s = .next t) :
    t.mem.wf = true := by
  cases i with
  | ldBVx x =>
    obtain rfl := Host.Outcome.next.inj h
    exact State.memWrite_wf _ _ (State.memWrite_wf _ _ (State.memWrite_wf _ _ hwf))
  | ldMemVx x =>
    obtain rfl := Host.Outcome.next.inj h
    exact State.storeRegs_wf s.i _ hwf
  | ret =>
    obtain ⟨-, rfl⟩ | ⟨-, ra, -, rfl⟩ := exec_ret_cases h <;> exact hwf
  | callAddr nnn =>
    obtain ⟨-, rfl⟩ | ⟨-, rfl⟩ := exec_callAddr_cases h <;> exact hwf
  | ldVxK x =>
    obtain ⟨c, -, rfl⟩ | ⟨-, rfl⟩ := exec_ldVxK_cases h <;> exact hwf
  | _ =>
    obtain rfl := Host.Outcome.next.inj h
    simpa using hwf

/-- An instruction keeps `SP` at most 15: a call pushes only below 15, a return pops only above 0. -/
theorem exec_keeps_sp {i : Instr} {s t : State} (hle : s.sp ≤ 15#8) (h : exec i s = .next t) : t.sp ≤ 15#8 := by
  cases exec_controlFlow h with
  | underflow hi hsp | overflow nnn hi hsp | jump a ha | skip hi hnone test => exact hle
  | ret ra hi hsp htop =>
    show s.sp - 1#8 ≤ 15#8
    bv_omega
  | call nnn hi hsp =>
    show s.sp + 1#8 ≤ 15#8
    bv_omega
  | advance hnone u hpc hrun hstack hsp => simpa [hsp] using hle

/-- An instruction keeps the timer's start at or before the clock: the clock only goes on, and FX15 takes its reading
(45_fx.md R182). -/
theorem exec_keeps_time {i : Instr} {s t : State} (hle : s.tStart ≤ s.clock.last) (h : exec i s = .next t) :
    t.tStart ≤ t.clock.last := by
  by_cases hclock : Part.clock ∈ mayChange i
  · obtain ⟨x, rfl⟩ | ⟨x, rfl⟩ := clock_mem_mayChange hclock
    · obtain rfl := Host.Outcome.next.inj h
      simpa using hle.trans s.clock.le_now
    · obtain rfl := Host.Outcome.next.inj h
      simp
  · have htimer : Part.timer ∉ mayChange i := fun hm => by
      obtain ⟨x, rfl⟩ := timer_mem_mayChange hm
      simp [mayChange] at hclock
    have frame := exec_sameBut h
    rw [(frame.timer htimer).1, frame.clock hclock]
    exact hle

theorem exec_keeps_stateOk {i : Instr} {s t : State} (hok : StateOk s) (h : exec i s = .next t) : StateOk t :=
  ⟨exec_keeps_memWf hok.mem h, exec_keeps_sp hok.sp h, exec_keeps_time hok.time h⟩

theorem exec_faultRecordTrue {i : Instr} {s t : State} (hok : StateOk s) (hrun : s.run = .running)
    (hd : decodeWord s.fetchWord = .ok i) (h : exec i s = .next t) : FaultRecordTrue t := by
  cases exec_controlFlow h with
  | underflow hi hsp =>
    subst hi
    exact ⟨rfl, decodeWord_eq_ret hd, hsp, rfl⟩
  | overflow nnn hi hsp =>
    subst hi
    have hfull : s.sp = 15#8 := BitVec.le_antisymm hok.sp hsp
    exact ⟨rfl, decodeWord_eq_callAddr hd, hfull, fieldOp_formNNN _ _⟩
  | ret ra hi hsp htop | call nnn hi hsp | jump a ha | skip hi hnone test => simp [FaultRecordTrue, hrun]
  | advance hnone u hpc hrun' hstack hsp => simp [FaultRecordTrue, hrun', hrun]

theorem step_keeps_stateOk {s t : State} (hok : StateOk s) (h : step s = .next t) : StateOk t := by
  obtain ⟨-, ⟨i, -, hexec⟩ | ⟨-, rfl⟩⟩ := step_cases h
  · exact exec_keeps_stateOk hok hexec
  · exact ⟨hok.mem, hok.sp, hok.time⟩

/-- A fault that a step enters is recorded truly. -/
theorem step_faultRecordTrue {s t : State} (hok : StateOk s) (h : step s = .next t) : FaultRecordTrue t := by
  obtain ⟨hrun, ⟨i, hd, hexec⟩ | ⟨⟨e, hd⟩, rfl⟩⟩ := step_cases h
  · exact exec_faultRecordTrue hok hrun hd hexec
  · exact ⟨rfl, rfl, e, hd⟩

/-- Settles O10: a step keeps `StateOk`, and any fault it enters is recorded truly. -/
theorem stepKeepsInvariant : Obligations.StepKeepsInvariant :=
  fun _ _ hinv h => ⟨step_keeps_stateOk hinv.ok h, step_faultRecordTrue hinv.ok h⟩

/-- Settles O11: memory lists nothing, `SP` and both instants are 0, and no fault is recorded. -/
theorem resetMeetsInvariant : Obligations.ResetMeetsInvariant := by
  have hok : StateOk State.reset := ⟨Memory.wf_nil, by decide, Nat.le_refl 0⟩
  exact ⟨hok, trivial⟩

end Sys2Proof.Machine
end

section
/-! SUPPORT. The reset values (10_state.md R40–R49, 20_memory.md R62). -/

namespace Sys2Proof.Machine

theorem memRead_reset (a : Word) : State.reset.memRead a = fontTable.getD (maskAddr a) 0x00#8 := rfl

theorem maskAddr_ofNat {n : Nat} (hn : n < 4096) : maskAddr (BitVec.ofNat 16 n) = n := by
  rw [maskAddr_eq_mod, BitVec.toNat_ofNat]
  omega

theorem fontTable_length : fontTable.length = 80 := rfl

/-- A timer of magnitude 0 reads 0 at every instant. -/
theorem timerValue_zero (t0 t : Nat) : timerValue 0x00#8 t0 t = 0x00#8 := by
  apply BitVec.eq_of_toNat_eq
  simp [timerValue_toNat]

/-- Settles O55: the cells by `cell_reset`, the rest by definition. -/
theorem resetValuesOfTheSource : Obligations.ResetValuesOfTheSource := ⟨rfl, rfl, cell_reset⟩

/-- Settles O56: memory right after reset is the font, and 0 past its end. -/
theorem resetValuesOfTheDecisions : Obligations.ResetValuesOfTheDecisions := by
  refine ⟨fun x => ?_, rfl, fun k => ?_, rfl, rfl, timerValue_zero _ _, rfl, fun a ha => ?_, fun k => ?_,
    fontTable_length, rfl⟩
  · simp [State.getV, State.reset]
  · simp [State.reset]
  · rw [memRead_reset]
    exact List.getD_eq_default _ _ (by rwa [fontTable_length])
  · rw [memRead_reset, maskAddr_ofNat (by omega)]
    rfl

end Sys2Proof.Machine
end

section
/-! SUPPORT. What two states that a program cannot tell apart do: when a step from one is matched by a step from the
other. -/

namespace Sys2Proof.Machine

/-- The only instruction that stops the machine is a return above slot 15, whatever else the state holds. -/
theorem exec_fault_iff {i : Instr} {s : State} {f : Fault} :
    exec i s = .fault f ↔ i = .ret ∧ 16 ≤ s.sp.toNat ∧ f = .stackSlotAbsent := by
  cases i with
  | ret =>
    by_cases hsp : s.sp = 0#8
    · simp [exec_ret_underflow, hsp]
    · by_cases hslot : s.sp.toNat < 16
      · simp [exec, execRet, hsp, State.top?_of_le hslot, Nat.not_le.mpr hslot]
      · have hslot := Nat.le_of_not_lt hslot
        simp [exec, execRet, hsp, State.top?_none hslot, hslot, eq_comm]
  | callAddr nnn => by_cases hsp : 15#8 ≤ s.sp <;> simp [exec_callAddr_overflow, exec_callAddr_push, hsp]
  | ldVxK x => cases hkey : s.key <;> simp [exec_ldVxK_some, exec_ldVxK_none, hkey]
  | _ => exact ⟨nofun, fun h => nomatch h.1⟩

/-- A step stops on a faulted block, or by its instruction. -/
theorem step_fault_cases {s : State} {f : Fault} (h : step s = .fault f) :
    (s.run ≠ .running ∧ f = .stepWhileFaulted) ∨
      (s.run = .running ∧ ∃ i, decodeWord s.fetchWord = .ok i ∧ exec i s = .fault f) := by
  cases hrun : s.run with
  | faulted c p w =>
    rw [step_of_faulted hrun] at h
    exact Or.inl ⟨nofun, (Host.Outcome.fault.inj h).symm⟩
  | running =>
    cases hd : decodeWord s.fetchWord with
    | ok i => exact Or.inr ⟨rfl, i, rfl, step_of_ok hrun hd ▸ h⟩
    | error e =>
      rw [step_of_error hrun hd] at h
      cases h

theorem step_of_not_running {s : State} (h : s.run ≠ .running) : step s = .fault .stepWhileFaulted := by
  cases hrun : s.run with
  | running => exact absurd hrun h
  | faulted c p w => exact step_of_faulted hrun

/-- Two states that fetch the same word, and whose every instruction and decode failure `R` relates, take the same kind
of step, to states that `R` relates. -/
theorem step_simulates {R : State → State → Prop} {s s' : State} (hrun : s'.run = .running ↔ s.run = .running)
    (hword : s'.fetchWord = s.fetchWord) (hsp : s'.sp = s.sp)
    (hraise : R (s.raise .decodeFailure s.fetchWord) (s'.raise .decodeFailure s.fetchWord))
    (hexec : ∀ i t, exec i s = .next t → ∃ t', exec i s' = .next t' ∧ R t t') :
    (∀ t, step s = .next t → ∃ t', step s' = .next t' ∧ R t t') ∧ ∀ f, step s = .fault f → step s' = .fault f := by
  constructor
  · intro t h
    obtain ⟨hr, ⟨i, hd, hi⟩ | ⟨⟨e, hd⟩, rfl⟩⟩ := step_cases h
    · rw [step_of_ok (hrun.mpr hr) (hword ▸ hd)]
      exact hexec i t hi
    · rw [step_of_error (hrun.mpr hr) (hword ▸ hd), hword]
      exact ⟨_, rfl, hraise⟩
  · intro f h
    obtain ⟨hr, rfl⟩ | ⟨hr, i, hd, hi⟩ := step_fault_cases h
    · exact step_of_not_running (mt hrun.mp hr)
    · rw [step_of_ok (hrun.mpr hr) (hword ▸ hd)]
      rw [exec_fault_iff] at hi ⊢
      rwa [hsp]

/-! ### The stack -/

section
variable (s : State) (q : Vector Word 16)

theorem State.storeRegs_withStack (a : Word) (n : Nat) :
    State.storeRegs { s with stack := q } a n = { s.storeRegs a n with stack := q } := by
  induction n with
  | zero => rfl
  | succ k ih =>
    rw [State.storeRegs, ih]
    rfl

theorem State.loadRegs_withStack (a : Word) (n : Nat) :
    State.loadRegs { s with stack := q } a n = { s.loadRegs a n with stack := q } := by
  induction n with
  | zero => rfl
  | succ k ih =>
    rw [State.loadRegs, ih]
    rfl

theorem State.drawRows_withStack (i0 : Word) (vx0 vy0 : Byte) (n : Nat) :
    State.drawRows { s with stack := q } i0 vx0 vy0 n = s.drawRows i0 vx0 vy0 n := by
  induction n with
  | zero => rfl
  | succ k ih =>
    rw [State.drawRows, ih]
    rfl

end

/-- An instruction other than 00EE and 2NNN does the same whatever the stack holds, and keeps what it holds. -/
theorem exec_withStack {i : Instr} {s t : State} (hret : i ≠ .ret) (hcall : ∀ nnn, i ≠ .callAddr nnn)
    (h : exec i s = .next t) (q : Vector Word 16) :
    exec i { s with stack := q } = .next { t with stack := q } := by
  cases i with
  | ret => exact absurd rfl hret
  | callAddr nnn => exact absurd rfl (hcall nnn)
  | ldVxK x =>
    obtain ⟨c, hkey, rfl⟩ | ⟨hkey, rfl⟩ := exec_ldVxK_cases h
    · exact exec_ldVxK_some (s := { s with stack := q }) x hkey
    · exact exec_ldVxK_none (s := { s with stack := q }) x hkey
  | ldMemVx x =>
    obtain rfl := Host.Outcome.next.inj h
    simp only [exec, execLdMemVx, State.storeRegs_withStack]
    rfl
  | ldVxMem x =>
    obtain rfl := Host.Outcome.next.inj h
    simp only [exec, execLdVxMem, State.loadRegs_withStack]
    rfl
  | drw x y n =>
    obtain rfl := Host.Outcome.next.inj h
    simp only [exec, execDrw, State.drawRows_withStack]
    rfl
  | _ =>
    obtain rfl := Host.Outcome.next.inj h
    rfl

end Sys2Proof.Machine
end

section
/-! SUPPORT. The call stack: who writes and reads it, and the slots that no program can observe (10_state.md R29,
R31). -/

namespace Sys2Proof.Machine

/-! ### Writers and readers -/

/-- A call does the same whatever the stack holds, but for the slots it does not push to. -/
theorem exec_callAddr_withStack {nnn : Addr} {s t : State} (h : exec (.callAddr nnn) s = .next t)
    (q : Vector Word 16) :
    ∃ t', exec (.callAddr nnn) { s with stack := q } = .next t' ∧ { t' with stack := t.stack } = t ∧
      ∀ k : Fin 16, t'.stack[k] = q[k] ∨ t'.stack[k] = t.stack[k] := by
  obtain ⟨hsp, rfl⟩ | ⟨hsp, rfl⟩ := exec_callAddr_cases h
  · exact ⟨_, exec_callAddr_overflow (s := { s with stack := q }) nnn hsp, rfl, fun k => Or.inl rfl⟩
  · refine ⟨_, exec_callAddr_push (s := { s with stack := q }) nnn hsp, rfl, fun k => ?_⟩
    simp only [State.jump_stack, State.push_slot]
    split
    · exact Or.inr rfl
    · exact Or.inl rfl

/-- Settles O18: the writers by the frame; an instruction other than 00EE does the same whatever the stack holds. -/
theorem onlyCallWritesAndOnlyRetReadsStack : Obligations.OnlyCallWritesAndOnlyRetReadsStack := by
  refine ⟨fun s a b q => ⟨rfl, rfl⟩, fun i s t h hcall => ?_, fun i s t q hret h => ?_⟩
  · exact (exec_sameBut h).stack (fun hm => (stack_mem_mayChange hm).elim hcall)
  · by_cases hcall : ∃ nnn, i = .callAddr nnn
    · obtain ⟨nnn, rfl⟩ := hcall
      obtain ⟨t', ht', hrest, hslots⟩ := exec_callAddr_withStack h q
      exact ⟨t', ht', hrest, fun k => (hslots k).imp_right (⟨·, nnn, rfl⟩)⟩
    · exact ⟨_, exec_withStack hret (not_exists.mp hcall) h q, rfl, fun k => Or.inl rfl⟩

/-! ### Slots that no pop can reach -/

/-- What `SameLiveStack` says: the states differ in the stack alone, and there in dead slots alone. -/
theorem sameLiveStack_iff {s s' : State} :
    SameLiveStack s s' ↔ ∃ q : Vector Word 16, s' = { s with stack := q } ∧
      ∀ k : Fin 16, 1 ≤ k.val → k.val ≤ s.sp.toNat → q[k] = s.stack[k] := by
  constructor
  · rintro ⟨hrest, hlive⟩
    refine ⟨s'.stack, ?_, hlive⟩
    rw [← hrest]
  · rintro ⟨q, rfl, hlive⟩
    exact ⟨rfl, hlive⟩

theorem SameLiveStack.raise {s s' : State} (h : SameLiveStack s s') (c : FaultCause) (w : Word) :
    SameLiveStack (s.raise c w) (s'.raise c w) := by
  obtain ⟨q, rfl, hlive⟩ := sameLiveStack_iff.mp h
  exact ⟨rfl, hlive⟩

/-- The slot that a return pops is live. -/
theorem SameLiveStack.top? {s s' : State} (h : SameLiveStack s s') (hsp : s.sp ≠ 0#8) : s'.top? = s.top? := by
  obtain ⟨q, rfl, hlive⟩ := sameLiveStack_iff.mp h
  have hpos : 1 ≤ s.sp.toNat := Nat.pos_of_ne_zero (fun e => hsp (BitVec.eq_of_toNat_eq e))
  by_cases hlt : s.sp.toNat < 16
  · have hslot : q[s.sp.toNat] = s.stack[s.sp.toNat] := hlive ⟨s.sp.toNat, hlt⟩ hpos (Nat.le_refl _)
    rw [State.top?_of_le hlt, State.top?_of_le (s := { s with stack := q }) hlt, hslot]
  · have hge := Nat.le_of_not_lt hlt
    rw [State.top?_none hge, State.top?_none (s := { s with stack := q }) hge]

/-- A pop leaves fewer slots live. -/
theorem SameLiveStack.pop {s s' : State} (h : SameLiveStack s s') (hsp : s.sp ≠ 0#8) (a : Word) :
    SameLiveStack (s.drop.jump a) (s'.drop.jump a) := by
  obtain ⟨q, rfl, hlive⟩ := sameLiveStack_iff.mp h
  refine ⟨rfl, fun k h1 hk => hlive k h1 (hk.trans ?_)⟩
  show (s.sp - 1#8).toNat ≤ s.sp.toNat
  bv_omega

/-- A push writes the one slot that it makes live. -/
theorem SameLiveStack.push {s s' : State} (h : SameLiveStack s s') (hsp : ¬ 15#8 ≤ s.sp) (a b : Word) :
    SameLiveStack ((s.push a).jump b) ((s'.push a).jump b) := by
  obtain ⟨q, rfl, hlive⟩ := sameLiveStack_iff.mp h
  refine ⟨rfl, fun k h1 hk => ?_⟩
  simp only [State.jump_stack, State.push_slot]
  split
  · rfl
  · rename_i hne
    refine hlive k h1 ?_
    have hle : k.val ≤ (s.sp + 1#8).toNat := hk
    bv_omega

/-- An instruction from two states that agree on the live slots. -/
theorem exec_sameLiveStack {s s' : State} (h : SameLiveStack s s') (i : Instr) (t : State)
    (hexec : exec i s = .next t) : ∃ t', exec i s' = .next t' ∧ SameLiveStack t t' := by
  have hsp : s'.sp = s.sp := by rw [← h.rest]
  have hpc : s'.pc = s.pc := by rw [← h.rest]
  by_cases hret : i = .ret
  · subst hret
    obtain ⟨h0, rfl⟩ | ⟨h0, ra, htop, rfl⟩ := exec_ret_cases hexec
    · exact ⟨_, exec_ret_underflow (hsp.trans h0), h.raise _ _⟩
    · exact ⟨_, exec_ret_pop (hsp ▸ h0) ((h.top? h0).trans htop), h.pop h0 ra⟩
  by_cases hcall : ∃ nnn, i = .callAddr nnn
  · obtain ⟨nnn, rfl⟩ := hcall
    obtain ⟨hfull, rfl⟩ | ⟨hfree, rfl⟩ := exec_callAddr_cases hexec
    · exact ⟨_, exec_callAddr_overflow nnn (hsp ▸ hfull), h.raise _ _⟩
    · exact ⟨_, exec_callAddr_push nnn (hsp ▸ hfree), hpc ▸ h.push hfree _ _⟩
  · obtain ⟨q, rfl, hlive⟩ := sameLiveStack_iff.mp h
    have hcall := not_exists.mp hcall
    have frame := exec_sameBut hexec
    have hstack : t.stack = s.stack := frame.stack (fun hm => (stack_mem_mayChange hm).elim hcall)
    have hsp : t.sp = s.sp := frame.sp (fun hm => (sp_mem_mayChange hm).elim hret fun hc => hc.elim hcall)
    exact ⟨_, exec_withStack hret hcall hexec q, rfl, by simpa [hstack, hsp] using hlive⟩

/-- Settles O14: a step neither reads a dead slot nor makes one live without writing it. -/
theorem deadStackSlotsUnobservable : Obligations.DeadStackSlotsUnobservable := by
  intro s s' h
  obtain ⟨q, rfl, -⟩ := sameLiveStack_iff.mp h
  exact step_simulates Iff.rfl rfl rfl (h.raise _ _) (exec_sameLiveStack h)

end Sys2Proof.Machine
end

section
/-! SUPPORT. Bits 15..12 of PC, `I` and the return addresses: every operation keeps the relation `SameLow12`
(10_state.md R23, R26). -/

namespace Sys2Proof.Machine

/-! ### Addresses up to bits 15..12 -/

theorem low12_eq_iff (a b : Word) : a &&& 0x0FFF#16 = b &&& 0x0FFF#16 ↔ maskAddr a = maskAddr b :=
  BitVec.toNat_inj.symm

theorem low12_add {a b : Word} (h : a &&& 0x0FFF#16 = b &&& 0x0FFF#16) (c : Word) :
    (a + c) &&& 0x0FFF#16 = (b + c) &&& 0x0FFF#16 := by
  simp only [low12_eq_iff, maskAddr_eq_mod, BitVec.toNat_add] at h ⊢
  omega

/-! ### What reads the same -/

namespace SameLow12

variable {s s' : State}

theorem getV (h : SameLow12 s s') (x : Nibble) : s'.getV x = s.getV x := by
  simp [State.getV, h.v]

theorem memRead (h : SameLow12 s s') {a a' : Word} (ha : a' &&& 0x0FFF#16 = a &&& 0x0FFF#16) :
    s'.memRead a' = s.memRead a := by
  simp [State.memRead, h.mem, (low12_eq_iff a' a).mp ha]

theorem fetchWord (h : SameLow12 s s') : s'.fetchWord = s.fetchWord := by
  simp only [State.fetchWord, h.memRead h.pc, h.memRead (low12_add h.pc 1#16)]

theorem keyIsPressed (h : SameLow12 s s') (c : Byte) : s'.keyIsPressed c = s.keyIsPressed c := by
  simp [State.keyIsPressed, h.key]

theorem timerGet (h : SameLow12 s s') : s'.timerGet = s.timerGet := by
  simp [State.timerGet, h.timer, h.clock]

theorem drawRows (h : SameLow12 s s') (vx0 vy0 : Byte) (n : Nat) :
    s'.drawRows s'.i vx0 vy0 n = s.drawRows s.i vx0 vy0 n := by
  induction n with
  | zero => simp [State.drawRows, h.fb]
  | succ k ih => simp [State.drawRows, ih, h.memRead (low12_add h.i (BitVec.ofNat 16 k))]

theorem run_eq_running_iff (h : SameLow12 s s') : s'.run = .running ↔ s.run = .running := by
  have hrun := h.run
  cases hs : s.run <;> cases hs' : s'.run <;> simp_all

/-- A pop reads slots that agree below bit 12. -/
theorem top? (h : SameLow12 s s') {ra : Word} (htop : s.top? = some ra) :
    ∃ ra', s'.top? = some ra' ∧ ra' &&& 0x0FFF#16 = ra &&& 0x0FFF#16 := by
  by_cases hlt : s.sp.toNat < 16
  · have hlt' : s'.sp.toNat < 16 := h.sp ▸ hlt
    rw [State.top?_of_le hlt] at htop
    obtain rfl := Option.some.inj htop
    refine ⟨_, State.top?_of_le hlt', ?_⟩
    simpa [h.sp] using h.stack ⟨s.sp.toNat, hlt⟩
  · rw [State.top?_none (Nat.le_of_not_lt hlt)] at htop
    cases htop

/-! ### What every operation keeps -/

theorem jump (h : SameLow12 s s') {a a' : Word} (ha : a' &&& 0x0FFF#16 = a &&& 0x0FFF#16) :
    SameLow12 (s.jump a) (s'.jump a') := { h with pc := ha }

theorem advance (h : SameLow12 s s') : SameLow12 s.advance s'.advance := h.jump (low12_add h.pc 2#16)

theorem skipIf (h : SameLow12 s s') (test : Bool) : SameLow12 (s.skipIf test) (s'.skipIf test) :=
  h.jump (low12_add h.pc _)

theorem setI (h : SameLow12 s s') {a a' : Word} (ha : a' &&& 0x0FFF#16 = a &&& 0x0FFF#16) :
    SameLow12 (s.setI a) (s'.setI a') := { h with i := ha }

theorem setV (h : SameLow12 s s') (x : Nibble) (b : Byte) : SameLow12 (s.setV x b) (s'.setV x b) :=
  { h with v := by simp [State.setV, h.v] }

theorem setResultThenFlag (h : SameLow12 s s') (x : Nibble) (r : Byte) (f : Bool) :
    SameLow12 (s.setResultThenFlag x r f) (s'.setResultThenFlag x r f) := (h.setV x r).setV vf (flagByte f)

theorem setFlagThenShift (h : SameLow12 s s') (n x : Nibble) (r : Byte) (f : Bool) :
    SameLow12 (s.setFlagThenShift n x r f) (s'.setFlagThenShift n x r f) := by
  simp only [State.setFlagThenShift, h.getV]
  exact (h.setV vf _).setV x _

theorem withFb (h : SameLow12 s s') (fb : FrameBuffer) : SameLow12 { s with fb := fb } { s' with fb := fb } :=
  { h with fb := rfl }

theorem memWrite (h : SameLow12 s s') {a a' : Word} (ha : a' &&& 0x0FFF#16 = a &&& 0x0FFF#16) (b : Byte) :
    SameLow12 (s.memWrite a b) (s'.memWrite a' b) :=
  { h with mem := by simp [h.mem, (low12_eq_iff a' a).mp ha] }

theorem drop (h : SameLow12 s s') : SameLow12 s.drop s'.drop := { h with sp := by simp [h.sp] }

theorem push (h : SameLow12 s s') {a a' : Word} (ha : a' &&& 0x0FFF#16 = a &&& 0x0FFF#16) :
    SameLow12 (s.push a) (s'.push a') :=
  { h with
    sp := by simp [h.sp]
    stack := fun k => by
      rw [State.push_slot, State.push_slot, h.sp]
      split
      · exact ha
      · exact h.stack k }

theorem raise (h : SameLow12 s s') (c : FaultCause) (w : Word) : SameLow12 (s.raise c w) (s'.raise c w) :=
  { h with run := ⟨rfl, h.pc, rfl⟩ }

theorem timerSet (h : SameLow12 s s') (b : Byte) : SameLow12 (s.timerSet b) (s'.timerSet b) :=
  { h with
    timer := by simp [h.clock]
    clock := by simp [h.clock] }

theorem readClock (h : SameLow12 s s') : SameLow12 s.readClock s'.readClock := { h with clock := by simp [h.clock] }

theorem drawByte (h : SameLow12 s s') : SameLow12 s.drawByte s'.drawByte := { h with rng := by simp [h.rng] }

theorem storeRegs (h : SameLow12 s s') {a a' : Word} (ha : a' &&& 0x0FFF#16 = a &&& 0x0FFF#16) (n : Nat) :
    SameLow12 (s.storeRegs a n) (s'.storeRegs a' n) := by
  induction n with
  | zero => exact h
  | succ k ih =>
    simp only [State.storeRegs, h.getV]
    exact ih.memWrite (low12_add ha _) _

theorem loadRegs (h : SameLow12 s s') {a a' : Word} (ha : a' &&& 0x0FFF#16 = a &&& 0x0FFF#16) (n : Nat) :
    SameLow12 (s.loadRegs a n) (s'.loadRegs a' n) := by
  induction n with
  | zero => exact h
  | succ k ih =>
    simp only [State.loadRegs, h.memRead (low12_add ha _)]
    exact ih.setV _ _

end SameLow12

/-- An instruction from two states that look the same ends in two that look the same. -/
theorem exec_sameLow12 {s s' : State} (h : SameLow12 s s') (i : Instr) (t : State) (hexec : exec i s = .next t) :
    ∃ t', exec i s' = .next t' ∧ SameLow12 t t' := by
  cases i with
  | ret =>
    obtain ⟨h0, rfl⟩ | ⟨h0, ra, htop, rfl⟩ := exec_ret_cases hexec
    · exact ⟨_, exec_ret_underflow (h.sp.trans h0), h.raise _ _⟩
    · obtain ⟨ra', htop', hra⟩ := h.top? htop
      exact ⟨_, exec_ret_pop (h.sp ▸ h0) htop', h.drop.jump hra⟩
  | callAddr nnn =>
    obtain ⟨hfull, rfl⟩ | ⟨hfree, rfl⟩ := exec_callAddr_cases hexec
    · exact ⟨_, exec_callAddr_overflow nnn (h.sp ▸ hfull), h.raise _ _⟩
    · exact ⟨_, exec_callAddr_push nnn (h.sp ▸ hfree), (h.push (low12_add h.pc _)).jump rfl⟩
  | ldVxK x =>
    obtain ⟨c, hkey, rfl⟩ | ⟨hkey, rfl⟩ := exec_ldVxK_cases hexec
    · exact ⟨_, exec_ldVxK_some x (h.key.trans hkey), (h.setV x _).advance⟩
    · exact ⟨_, exec_ldVxK_none x (h.key.trans hkey), h.advance⟩
  | cls =>
    obtain rfl := Host.Outcome.next.inj hexec
    exact ⟨_, rfl, (h.withFb _).advance⟩
  | ldStVx =>
    obtain rfl := Host.Outcome.next.inj hexec
    exact ⟨_, rfl, h.advance⟩
  | sysAddr nnn | jpAddr nnn =>
    obtain rfl := Host.Outcome.next.inj hexec
    exact ⟨_, rfl, h.jump rfl⟩
  | jpV0Addr nnn =>
    obtain rfl := Host.Outcome.next.inj hexec
    exact ⟨_, rfl, h.jump (by rw [h.getV])⟩
  | seVxByte x kk | sneVxByte x kk | seVxVy x y | sneVxVy x y =>
    obtain rfl := Host.Outcome.next.inj hexec
    refine ⟨_, rfl, ?_⟩
    simp only [h.getV]
    exact h.skipIf _
  | skpVx x | sknpVx x =>
    obtain rfl := Host.Outcome.next.inj hexec
    refine ⟨_, rfl, ?_⟩
    simp only [h.getV, h.keyIsPressed]
    exact h.skipIf _
  | ldVxByte x kk =>
    obtain rfl := Host.Outcome.next.inj hexec
    exact ⟨_, rfl, (h.setV x kk).advance⟩
  | addVxByte x kk | ldVxVy x y | orVxVy x y | andVxVy x y | xorVxVy x y =>
    obtain rfl := Host.Outcome.next.inj hexec
    refine ⟨_, rfl, ?_⟩
    simp only [h.getV]
    exact (h.setV x _).advance
  | addVxVy x y | subVxVy x y | subnVxVy x y =>
    obtain rfl := Host.Outcome.next.inj hexec
    refine ⟨_, rfl, ?_⟩
    simp only [h.getV]
    exact (h.setResultThenFlag x _ _).advance
  | shrVx x | shlVx x =>
    obtain rfl := Host.Outcome.next.inj hexec
    refine ⟨_, rfl, ?_⟩
    simp only [h.getV]
    exact (h.setFlagThenShift _ x _ _).advance
  | ldIAddr nnn =>
    obtain rfl := Host.Outcome.next.inj hexec
    exact ⟨_, rfl, (h.setI rfl).advance⟩
  | addIVx x =>
    obtain rfl := Host.Outcome.next.inj hexec
    refine ⟨_, rfl, ?_⟩
    simp only [h.getV]
    exact (h.setI (low12_add h.i _)).advance
  | ldFVx x =>
    obtain rfl := Host.Outcome.next.inj hexec
    exact ⟨_, rfl, (h.setI (by rw [h.getV])).advance⟩
  | rndVxByte x kk =>
    obtain rfl := Host.Outcome.next.inj hexec
    refine ⟨_, rfl, ?_⟩
    simp only [h.rng]
    exact (h.drawByte.setV x _).advance
  | drw x y n =>
    obtain rfl := Host.Outcome.next.inj hexec
    refine ⟨_, rfl, ?_⟩
    simp only [h.getV, h.drawRows]
    exact ((h.withFb _).setV vf _).advance
  | ldVxDt x =>
    obtain rfl := Host.Outcome.next.inj hexec
    refine ⟨_, rfl, ?_⟩
    simp only [h.timerGet]
    exact (h.readClock.setV x _).advance
  | ldDtVx x =>
    obtain rfl := Host.Outcome.next.inj hexec
    refine ⟨_, rfl, ?_⟩
    simp only [h.getV]
    exact (h.timerSet _).advance
  | ldBVx x =>
    obtain rfl := Host.Outcome.next.inj hexec
    refine ⟨_, rfl, ?_⟩
    simp only [h.getV]
    exact (((h.memWrite h.i _).memWrite (low12_add h.i _) _).memWrite (low12_add h.i _) _).advance
  | ldMemVx x =>
    obtain rfl := Host.Outcome.next.inj hexec
    exact ⟨_, rfl, ((h.storeRegs h.i _).setI (low12_add h.i _)).advance⟩
  | ldVxMem x =>
    obtain rfl := Host.Outcome.next.inj hexec
    exact ⟨_, rfl, (h.loadRegs h.i _).advance⟩

/-- Settles O13: two states that look the same fetch the same word, and every instruction keeps them so. -/
theorem highAddressBitsUnobservable : Obligations.HighAddressBitsUnobservable := fun _ _ h =>
  step_simulates h.run_eq_running_iff h.fetchWord h.sp (h.raise _ _) (exec_sameLow12 h)

end Sys2Proof.Machine
end

section
/-! SUPPORT. Memory and the fetch: every access depends on its address through the mask alone, and the fetched word is
read big-endian from PC (20_memory.md R50–R58, R69). -/

namespace Sys2Proof.Machine

/-! ### Accesses up to the mask -/

/-- Addresses that agree below bit 12 read the same byte. -/
theorem State.memRead_congr (s : State) {a b : Word} (h : a &&& 0x0FFF#16 = b &&& 0x0FFF#16) :
    s.memRead a = s.memRead b := by
  rw [State.memRead, State.memRead, (low12_eq_iff a b).mp h]

/-- Writes of a byte at addresses that agree below bit 12 end in the same state. -/
theorem State.memWrite_congr (s : State) {a b : Word} (d : Byte) (h : a &&& 0x0FFF#16 = b &&& 0x0FFF#16) :
    s.memWrite a d = s.memWrite b d := by
  rw [State.memWrite, State.memWrite, (low12_eq_iff a b).mp h]

/-- Settles O21: a read and a write see their address through the mask alone. -/
theorem everyAddressIsMasked : Obligations.EveryAddressIsMasked := fun s _ _ d h =>
  ⟨s.memRead_congr h, s.memWrite_congr d h⟩

/-! ### A read after a write -/

theorem State.memRead_memWrite_same (s : State) {a b : Word} (d : Byte) (h : a &&& 0x0FFF#16 = b &&& 0x0FFF#16) :
    (s.memWrite a d).memRead b = d := by
  rw [State.memRead_memWrite, if_pos ((low12_eq_iff a b).mp h).symm]

theorem State.memRead_memWrite_of_ne (s : State) {a b : Word} (d : Byte) (h : a &&& 0x0FFF#16 ≠ b &&& 0x0FFF#16) :
    (s.memWrite a d).memRead b = s.memRead b := by
  rw [State.memRead_memWrite, if_neg (fun hm => h ((low12_eq_iff a b).mpr hm.symm))]

/-- Settles O22: the two cases of a read after a write, the frame of a write, and R69's pair of addresses as an
instance of the first case. -/
theorem readAfterWriteAtMaskedAddress : Obligations.ReadAfterWriteAtMaskedAddress :=
  ⟨fun s a _ d => ⟨s.memRead_memWrite_same d, s.memRead_memWrite_of_ne d, s.sameBut_memWrite a d⟩,
    fun s d => s.memRead_memWrite_same d (by decide)⟩

/-! ### The fetch -/

theorem State.fetchWord_eq_wordOfBytes (s : State) :
    s.fetchWord = wordOfBytes (s.memRead s.pc) (s.memRead (s.pc + 1#16)) := rfl

/-- R55's formula for the word of two bytes. -/
theorem wordOfBytes_eq_shiftLeft_or (hi lo : Byte) :
    wordOfBytes hi lo = hi.setWidth 16 <<< 8 ||| lo.setWidth 16 := by
  rw [wordOfBytes, ← BitVec.setWidth_append_eq_shiftLeft_setWidth_or, BitVec.setWidth_eq]

/-- Settles O5: the fetched word is `wordOfBytes` of the two bytes, whose halves and whose value are known. -/
theorem fetchIsBigEndian : Obligations.FetchIsBigEndian := by
  intro s
  rw [s.fetchWord_eq_wordOfBytes]
  exact ⟨hiByte_wordOfBytes _ _, loByte_wordOfBytes _ _, wordOfBytes_eq_shiftLeft_or _ _⟩

/-- Settles O23: where PC masks to 0xFFF, PC + 1 masks to 0x000, as 0x0FFF + 1 does. -/
theorem fetchWrapsAtTopOfMemory : Obligations.FetchWrapsAtTopOfMemory := by
  intro s hpc
  have hfirst : s.memRead s.pc = s.memRead 0x0FFF#16 := s.memRead_congr hpc
  have hsecond : s.memRead (s.pc + 1#16) = s.memRead 0x0000#16 :=
    s.memRead_congr (low12_add (b := 0x0FFF#16) hpc 1#16)
  rw [State.fetchWord, hfirst, hsecond]

end Sys2Proof.Machine
end

section
/-! SUPPORT. Encoding: a word is put together from its fields in one way, decoding undoes encoding, and a word decodes
to the instruction whose word it is up to the ignored bits (30_encoding.md R70–R75). -/

namespace Sys2Proof

/-! ### Words and their fields -/

/-- A word is `op nnn` for its own fields only. -/
theorem formNNN_eq_iff {op : Nibble} {nnn : Addr} {w : Word} :
    formNNN op nnn = w ↔ op = fieldOp w ∧ nnn = fieldNNN w := by
  constructor
  · rintro rfl
    simp
  · rintro ⟨rfl, rfl⟩
    exact formNNN_fields w

/-- A word is `op x kk` for its own fields only. -/
theorem formXKK_eq_iff {op x : Nibble} {kk : Byte} {w : Word} :
    formXKK op x kk = w ↔ op = fieldOp w ∧ x = fieldX w ∧ kk = fieldKK w := by
  constructor
  · rintro rfl
    simp
  · rintro ⟨rfl, rfl, rfl⟩
    exact formXKK_fields w

/-- A word is `op x y n` for its own fields only. -/
theorem formXYN_eq_iff {op x y n : Nibble} {w : Word} :
    formXYN op x y n = w ↔ op = fieldOp w ∧ x = fieldX w ∧ y = fieldY w ∧ n = fieldN w := by
  constructor
  · rintro rfl
    simp
  · rintro ⟨rfl, rfl, rfl, rfl⟩
    exact formXYN_fields w

theorem fieldOp_and (a b : Word) : fieldOp (a &&& b) = fieldOp a &&& fieldOp b := BitVec.extractLsb'_and
theorem fieldX_and (a b : Word) : fieldX (a &&& b) = fieldX a &&& fieldX b := BitVec.extractLsb'_and
theorem fieldY_and (a b : Word) : fieldY (a &&& b) = fieldY a &&& fieldY b := BitVec.extractLsb'_and
theorem fieldN_and (a b : Word) : fieldN (a &&& b) = fieldN a &&& fieldN b := BitVec.extractLsb'_and
theorem fieldKK_and (a b : Word) : fieldKK (a &&& b) = fieldKK a &&& fieldKK b := BitVec.extractLsb'_and

/-- The word with its `y` field put to 0. -/
theorem and_not_yMask (w : Word) : w &&& ~~~ 0x00F0#16 = formXYN (fieldOp w) (fieldX w) 0x0#4 (fieldN w) := by
  symm
  rw [formXYN_eq_iff, fieldOp_and, fieldX_and, fieldY_and, fieldN_and]
  exact ⟨BitVec.and_allOnes.symm, BitVec.and_allOnes.symm, BitVec.and_zero.symm, BitVec.and_allOnes.symm⟩

/-- The word with its `x` field put to 0. -/
theorem and_not_xMask (w : Word) : w &&& ~~~ 0x0F00#16 = formXKK (fieldOp w) 0x0#4 (fieldKK w) := by
  symm
  rw [formXKK_eq_iff, fieldOp_and, fieldX_and, fieldKK_and]
  exact ⟨BitVec.and_allOnes.symm, BitVec.and_zero.symm, BitVec.and_allOnes.symm⟩

/-! ### Decoding the word of an instruction -/

theorem decodeWord_family0 {w : Word} (hop : fieldOp w = 0x0#4) : decodeWord w = .ok (decodeFamily0 w) := by
  simp [decodeWord, hop]

theorem decodeWord_family8 {w : Word} (hop : fieldOp w = 0x8#4) : decodeWord w = decodeFamily8 w := by
  simp [decodeWord, hop]

theorem decodeWord_familyE {w : Word} (hop : fieldOp w = 0xE#4) : decodeWord w = decodeFamilyE w := by
  simp [decodeWord, hop]

theorem decodeWord_familyF {w : Word} (hop : fieldOp w = 0xF#4) : decodeWord w = decodeFamilyF w := by
  simp [decodeWord, hop]

/-- `0NNN` decodes to SYS unless it is one of the two words above its row. -/
theorem decodeFamily0_sysAddr {w : Word} (hcls : w ≠ 0x00E0#16) (hret : w ≠ 0x00EE#16) :
    decodeFamily0 w = .sysAddr (fieldNNN w) := by
  rw [decodeFamily0, if_neg hcls, if_neg hret]

theorem wellFormed_sysAddr_iff {nnn : Addr} :
    (Instr.sysAddr nnn).WellFormed ↔ formNNN 0x0#4 nnn ≠ 0x00E0#16 ∧ formNNN 0x0#4 nnn ≠ 0x00EE#16 := by
  have hcls : fieldOp 0x00E0#16 = 0x0#4 ∧ fieldNNN 0x00E0#16 = 0x0E0#12 := by decide
  have hret : fieldOp 0x00EE#16 = 0x0#4 ∧ fieldNNN 0x00EE#16 = 0x0EE#12 := by decide
  simp [Instr.WellFormed, Instr.wellFormed, formNNN_eq_iff, hcls, hret]

/-- Decoding undoes encoding: the fields of the built word select the row and are the operands. -/
theorem decodeWord_encode {i : Instr} (h : i.WellFormed) : decodeWord (encode i) = .ok i := by
  cases i with
  | cls | ret | ldStVx => decide
  | sysAddr nnn =>
    obtain ⟨hcls, hret⟩ := wellFormed_sysAddr_iff.mp h
    refine (decodeWord_family0 (fieldOp_formNNN _ _)).trans ?_
    rw [decodeFamily0_sysAddr hcls hret, fieldNNN_formNNN]
  | ldVxVy | orVxVy | andVxVy | xorVxVy | addVxVy | subVxVy | shrVx | subnVxVy | shlVx =>
    refine (decodeWord_family8 (fieldOp_formXYN _ _ _ _)).trans ?_
    simp [decodeFamily8]
  | skpVx | sknpVx =>
    refine (decodeWord_familyE (fieldOp_formXKK _ _ _)).trans ?_
    simp [decodeFamilyE]
  | ldVxDt | ldVxK | ldDtVx | addIVx | ldFVx | ldBVx | ldMemVx | ldVxMem =>
    refine (decodeWord_familyF (fieldOp_formXKK _ _ _)).trans ?_
    simp [decodeFamilyF]
  | _ => simp [encode, decodeWord]

theorem decodeWord_of_encode_eq {i : Instr} {w : Word} (h : i.WellFormed) (hw : encode i = w) :
    decodeWord w = .ok i :=
  hw ▸ decodeWord_encode h

theorem decodeBytes_encodeBytes {i : Instr} (rest : List Byte) (h : i.WellFormed) :
    decodeBytes (encodeBytes i ++ rest) = .ok (i, rest) :=
  calc decodeBytes (encodeBytes i ++ rest)
      = (decodeWord (wordOfBytes (hiByte (encode i)) (loByte (encode i)))).map (·, rest) := decodeBytes_cons _ _ rest
    _ = (Except.ok i).map (·, rest) := by rw [wordOfBytes_bytes, decodeWord_encode h]
    _ = .ok (i, rest) := rfl

/-- Settles O1: the word form by the fields of a built word, the byte form by putting the two bytes together again. -/
theorem decodeUndoesEncode : Obligations.DecodeUndoesEncode :=
  ⟨fun _ => decodeWord_encode, fun _ => decodeBytes_encodeBytes⟩

/-- Settles O4: each word is the encoding of the instruction named with it. -/
theorem writtenOutWordsDecode : Obligations.WrittenOutWordsDecode := by
  refine ⟨?_, ?_, ?_, ?_, ?_, ?_, ?_, ?_, ?_, ?_, ?_, ?_, ?_, ?_, ?_, ?_⟩ <;> exact decodeWord_of_encode_eq rfl rfl

/-! ### The instruction of a word -/

/-- `w` is a word of `i`: the word of `i` in every bit its row does not ignore (R73, R75). -/
def Instr.IsReadFrom (i : Instr) (w : Word) : Prop := i.WellFormed ∧ w &&& ~~~ i.ignoredBits = encode i

/-- A row that ignores nothing: an instruction is read from its own word alone. -/
theorem isReadFrom_iff_encode_eq {i : Instr} {w : Word} (hi : i.ignoredBits = 0#16) :
    i.IsReadFrom w ↔ i.WellFormed ∧ encode i = w := by
  have hw : w &&& ~~~ 0#16 = w := BitVec.and_allOnes
  rw [Instr.IsReadFrom, hi, hw, eq_comm (a := w)]

theorem isReadFrom_of_encode_eq {i : Instr} {w : Word} (hwf : i.WellFormed) (hi : i.ignoredBits = 0#16)
    (hw : encode i = w) : i.IsReadFrom w :=
  (isReadFrom_iff_encode_eq hi).mpr ⟨hwf, hw⟩

/-- The rows that ignore `y`. -/
theorem isReadFrom_iff_of_ignores_y {i : Instr} {op x n : Nibble} {w : Word} (hi : i.ignoredBits = 0x00F0#16)
    (hwf : i.WellFormed) (he : encode i = formXYN op x 0x0#4 n) :
    i.IsReadFrom w ↔ fieldOp w = op ∧ fieldX w = x ∧ fieldN w = n := by
  rw [Instr.IsReadFrom, hi, he, and_not_yMask, formXYN_eq_iff, and_iff_right hwf]
  simp

/-- The row that ignores `x`. -/
theorem isReadFrom_ldStVx_iff {w : Word} :
    Instr.ldStVx.IsReadFrom w ↔ fieldOp w = 0xF#4 ∧ fieldKK w = 0x18#8 := by
  have hwf : Instr.ldStVx.WellFormed := rfl
  have hi : Instr.ldStVx.ignoredBits = 0x0F00#16 := rfl
  rw [Instr.IsReadFrom, hi, encode, and_not_xMask, formXKK_eq_iff, and_iff_right hwf]
  simp

theorem decodeFamily0_isReadFrom {w : Word} (hop : fieldOp w = 0x0#4) : (decodeFamily0 w).IsReadFrom w := by
  by_cases hcls : w = 0x00E0#16
  · subst hcls
    exact ⟨rfl, rfl⟩
  by_cases hret : w = 0x00EE#16
  · subst hret
    exact ⟨rfl, rfl⟩
  have hw : formNNN 0x0#4 (fieldNNN w) = w := formNNN_eq_iff.mpr ⟨hop.symm, rfl⟩
  rw [decodeFamily0_sysAddr hcls hret]
  exact isReadFrom_of_encode_eq (wellFormed_sysAddr_iff.mpr (by rw [hw]; exact ⟨hcls, hret⟩)) rfl hw

theorem decodeFamily8_isReadFrom {w : Word} {i : Instr} (hop : fieldOp w = 0x8#4) (h : decodeFamily8 w = .ok i) :
    i.IsReadFrom w := by
  unfold decodeFamily8 at h
  split at h
  case h_7 hn | h_9 hn =>
    obtain rfl := Except.ok.inj h
    exact (isReadFrom_iff_of_ignores_y rfl rfl rfl).mpr ⟨hop, rfl, hn⟩
  case h_10 => cases h
  all_goals
    rename_i hn
    obtain rfl := Except.ok.inj h
    exact isReadFrom_of_encode_eq rfl rfl (formXYN_eq_iff.mpr ⟨hop.symm, rfl, rfl, hn.symm⟩)

theorem decodeFamilyE_isReadFrom {w : Word} {i : Instr} (hop : fieldOp w = 0xE#4) (h : decodeFamilyE w = .ok i) :
    i.IsReadFrom w := by
  unfold decodeFamilyE at h
  split at h
  case h_3 => cases h
  all_goals
    rename_i hkk
    obtain rfl := Except.ok.inj h
    exact isReadFrom_of_encode_eq rfl rfl (formXKK_eq_iff.mpr ⟨hop.symm, rfl, hkk.symm⟩)

theorem decodeFamilyF_isReadFrom {w : Word} {i : Instr} (hop : fieldOp w = 0xF#4) (h : decodeFamilyF w = .ok i) :
    i.IsReadFrom w := by
  unfold decodeFamilyF at h
  split at h
  case h_4 hkk =>
    obtain rfl := Except.ok.inj h
    exact isReadFrom_ldStVx_iff.mpr ⟨hop, hkk⟩
  case h_10 => cases h
  all_goals
    rename_i hkk
    obtain rfl := Except.ok.inj h
    exact isReadFrom_of_encode_eq rfl rfl (formXKK_eq_iff.mpr ⟨hop.symm, rfl, hkk.symm⟩)

/-- The nibble the last arm of R73's dispatch is left with. -/
theorem nibble_eq_F : ∀ n : Nibble,
    n ∉ [0x0#4, 0x1#4, 0x2#4, 0x3#4, 0x4#4, 0x5#4, 0x6#4, 0x7#4, 0x8#4, 0x9#4, 0xA#4, 0xB#4, 0xC#4, 0xD#4, 0xE#4] →
      n = 0xF#4 := by decide

/-- R73's dispatch reads an instruction only from its words: the arms fix `op` and the sub-opcode, and the operands are
the word's own fields. -/
theorem decodeWord_isReadFrom {w : Word} {i : Instr} (h : decodeWord w = .ok i) : i.IsReadFrom w := by
  unfold decodeWord at h
  split at h
  case h_1 hop =>
    obtain rfl := Except.ok.inj h
    exact decodeFamily0_isReadFrom hop
  case h_2 hop | h_3 hop | h_11 hop | h_12 hop =>
    obtain rfl := Except.ok.inj h
    exact isReadFrom_of_encode_eq rfl rfl (formNNN_eq_iff.mpr ⟨hop.symm, rfl⟩)
  case h_4 hop | h_5 hop | h_7 hop | h_8 hop | h_13 hop =>
    obtain rfl := Except.ok.inj h
    exact isReadFrom_of_encode_eq rfl rfl (formXKK_eq_iff.mpr ⟨hop.symm, rfl, rfl⟩)
  case h_6 hop | h_10 hop =>
    split at h
    · next hn =>
      obtain rfl := Except.ok.inj h
      exact isReadFrom_of_encode_eq rfl rfl (formXYN_eq_iff.mpr ⟨hop.symm, rfl, rfl, hn.symm⟩)
    · cases h
  case h_14 hop =>
    obtain rfl := Except.ok.inj h
    exact isReadFrom_of_encode_eq rfl rfl (formXYN_eq_iff.mpr ⟨hop.symm, rfl, rfl, rfl⟩)
  case h_9 hop => exact decodeFamily8_isReadFrom hop h
  case h_15 hop => exact decodeFamilyE_isReadFrom hop h
  case h_16 =>
    have hop : fieldOp w = 0xF#4 := nibble_eq_F _ (by simp_all)
    exact decodeFamilyF_isReadFrom hop h

/-- The decoder looks at no ignored bit. -/
theorem decodeWord_of_isReadFrom {w : Word} {i : Instr} (h : i.IsReadFrom w) : decodeWord w = .ok i := by
  cases i with
  | shrVx x | shlVx x =>
    obtain ⟨hop, hx, hn⟩ := (isReadFrom_iff_of_ignores_y rfl rfl rfl).mp h
    simp [decodeWord_family8 hop, decodeFamily8, hx, hn]
  | ldStVx =>
    obtain ⟨hop, hkk⟩ := isReadFrom_ldStVx_iff.mp h
    simp [decodeWord_familyF hop, decodeFamilyF, hkk]
  | _ =>
    obtain ⟨hwf, rfl⟩ := (isReadFrom_iff_encode_eq rfl).mp h
    exact decodeWord_encode hwf

/-- A word decodes to the instruction whose word it is, up to the ignored bits. -/
theorem decodeWord_eq_ok_iff {w : Word} {i : Instr} : decodeWord w = .ok i ↔ i.IsReadFrom w :=
  ⟨decodeWord_isReadFrom, decodeWord_of_isReadFrom⟩

end Sys2Proof
end

section
/-! SUPPORT. The rows of the opcode table: the masked bits of a word select the row it decodes to (30_encoding.md R73,
R75), and the words that no row selects (R74). -/

namespace Sys2Proof

/-! ### The word of an instruction in its row -/

open Laws.EncodeRow in
/-- Every instruction's word lies in its row and is 0 in the bits the row ignores (R73, R75). -/
theorem encodeRow : ∀ i : Instr, Statement i
  | .cls => cls
  | .ret => ret
  | .sysAddr nnn => sysAddr nnn
  | .jpAddr nnn => jpAddr nnn
  | .callAddr nnn => callAddr nnn
  | .seVxByte x kk => seVxByte x kk
  | .sneVxByte x kk => sneVxByte x kk
  | .seVxVy x y => seVxVy x y
  | .ldVxByte x kk => ldVxByte x kk
  | .addVxByte x kk => addVxByte x kk
  | .ldVxVy x y => ldVxVy x y
  | .orVxVy x y => orVxVy x y
  | .andVxVy x y => andVxVy x y
  | .xorVxVy x y => xorVxVy x y
  | .addVxVy x y => addVxVy x y
  | .subVxVy x y => subVxVy x y
  | .shrVx x => shrVx x
  | .subnVxVy x y => subnVxVy x y
  | .shlVx x => shlVx x
  | .sneVxVy x y => sneVxVy x y
  | .ldIAddr nnn => ldIAddr nnn
  | .jpV0Addr nnn => jpV0Addr nnn
  | .rndVxByte x kk => rndVxByte x kk
  | .drw x y n => drw x y n
  | .skpVx x => skpVx x
  | .sknpVx x => sknpVx x
  | .ldVxDt x => ldVxDt x
  | .ldVxK x => ldVxK x
  | .ldDtVx x => ldDtVx x
  | .ldStVx => ldStVx
  | .addIVx x => addIVx x
  | .ldFVx x => ldFVx x
  | .ldBVx x => ldBVx x
  | .ldMemVx x => ldMemVx x
  | .ldVxMem x => ldVxMem x

theorem encode_and_rowMask (i : Instr) : encode i &&& i.rowMask = i.rowMatch := (encodeRow i).1

/-- The bits a row ignores lie outside its mask. -/
theorem ignoredBits_cases (i : Instr) :
    i.ignoredBits = 0x0000#16 ∨ (i.ignoredBits = 0x00F0#16 ∧ i.rowMask = 0xF00F#16) ∨
      (i.ignoredBits = 0x0F00#16 ∧ i.rowMask = 0xF0FF#16) := by
  cases i <;> simp [Instr.ignoredBits, Instr.rowMask]

theorem not_ignoredBits_and_rowMask (i : Instr) : ~~~ i.ignoredBits &&& i.rowMask = i.rowMask := by
  obtain h | ⟨h, hm⟩ | ⟨h, hm⟩ := ignoredBits_cases i
  · rw [h]
    exact BitVec.allOnes_and
  · rw [h, hm]
    rfl
  · rw [h, hm]
    rfl

theorem rowMatch_of_isReadFrom {w : Word} {i : Instr} (h : i.IsReadFrom w) : w &&& i.rowMask = i.rowMatch := by
  obtain ⟨-, hw⟩ := h
  calc w &&& i.rowMask
      = w &&& ~~~ i.ignoredBits &&& i.rowMask := by rw [BitVec.and_assoc, not_ignoredBits_and_rowMask]
    _ = encode i &&& i.rowMask := by rw [hw]
    _ = i.rowMatch := encode_and_rowMask i

/-! ### Words that agree under a mask agree in the fields the mask covers -/

section
variable {m w w' : Word} (h : w &&& m = w' &&& m)
include h

theorem fieldOp_eq_of_mask (hm : fieldOp m = BitVec.allOnes 4) : fieldOp w = fieldOp w' := by
  simpa only [fieldOp_and, hm, BitVec.and_allOnes] using congrArg fieldOp h

theorem fieldN_eq_of_mask (hm : fieldN m = BitVec.allOnes 4) : fieldN w = fieldN w' := by
  simpa only [fieldN_and, hm, BitVec.and_allOnes] using congrArg fieldN h

theorem fieldKK_eq_of_mask (hm : fieldKK m = BitVec.allOnes 8) : fieldKK w = fieldKK w' := by
  simpa only [fieldKK_and, hm, BitVec.and_allOnes] using congrArg fieldKK h

end

/-- A word that agrees with `op x y n` under the mask of R73's `n` rows has its `op` and its `n`. -/
theorem fieldOp_fieldN_of_mask {w : Word} {op x y n : Nibble}
    (h : w &&& 0xF00F#16 = formXYN op x y n &&& 0xF00F#16) : fieldOp w = op ∧ fieldN w = n :=
  ⟨(fieldOp_eq_of_mask h rfl).trans (fieldOp_formXYN op x y n),
    (fieldN_eq_of_mask h rfl).trans (fieldN_formXYN op x y n)⟩

/-- A word that agrees with `op x kk` under the mask of R73's `kk` rows has its `op` and its `kk`. -/
theorem fieldOp_fieldKK_of_mask {w : Word} {op x : Nibble} {kk : Byte}
    (h : w &&& 0xF0FF#16 = formXKK op x kk &&& 0xF0FF#16) : fieldOp w = op ∧ fieldKK w = kk :=
  ⟨(fieldOp_eq_of_mask h rfl).trans (fieldOp_formXKK op x kk),
    (fieldKK_eq_of_mask h rfl).trans (fieldKK_formXKK op x kk)⟩

/-! ### The row that a word's bits select -/

/-- The words of a row decode to instructions of that row, SYS last: the bits that the mask looks at select the row. -/
theorem decodeWord_of_rowMatch {w : Word} {i : Instr} (h : w &&& i.rowMask = i.rowMatch)
    (hsys : i.rowMask = 0xFFFF#16 ∨ (w ≠ 0x00E0#16 ∧ w ≠ 0x00EE#16)) :
    ∃ j, decodeWord w = .ok j ∧ j.rowMask = i.rowMask ∧ j.rowMatch = i.rowMatch := by
  rw [← encode_and_rowMask i] at h
  cases i with
  | cls | ret =>
    have hw := BitVec.and_allOnes.symm.trans (h.trans BitVec.and_allOnes)
    exact ⟨_, hw ▸ decodeWord_encode rfl, rfl, rfl⟩
  | sysAddr nnn =>
    obtain ⟨hcls, hret⟩ := hsys.resolve_left (by simp [Instr.rowMask])
    have hop : fieldOp w = 0x0#4 := (fieldOp_eq_of_mask (m := 0xF000#16) h rfl).trans (fieldOp_formNNN _ _)
    exact ⟨.sysAddr (fieldNNN w), by rw [decodeWord_family0 hop, decodeFamily0_sysAddr hcls hret], rfl, rfl⟩
  | ldVxVy | orVxVy | andVxVy | xorVxVy | addVxVy | subVxVy | shrVx | subnVxVy | shlVx =>
    obtain ⟨hop, hn⟩ := fieldOp_fieldN_of_mask h
    rw [decodeWord_family8 hop, decodeFamily8, hn]
    exact ⟨_, rfl, rfl, rfl⟩
  | seVxVy | sneVxVy =>
    obtain ⟨hop, hn⟩ := fieldOp_fieldN_of_mask h
    rw [decodeWord, hop, hn]
    exact ⟨_, rfl, rfl, rfl⟩
  | skpVx | sknpVx =>
    obtain ⟨hop, hkk⟩ := fieldOp_fieldKK_of_mask h
    rw [decodeWord_familyE hop, decodeFamilyE, hkk]
    exact ⟨_, rfl, rfl, rfl⟩
  | ldVxDt | ldVxK | ldDtVx | ldStVx | addIVx | ldFVx | ldBVx | ldMemVx | ldVxMem =>
    obtain ⟨hop, hkk⟩ := fieldOp_fieldKK_of_mask h
    rw [decodeWord_familyF hop, decodeFamilyF, hkk]
    exact ⟨_, rfl, rfl, rfl⟩
  | _ =>
    have hop := fieldOp_eq_of_mask (m := 0xF000#16) h rfl
    simp only [encode, fieldOp_formNNN, fieldOp_formXKK, fieldOp_formXYN] at hop
    rw [decodeWord, hop]
    exact ⟨_, rfl, rfl, rfl⟩

/-- Settles O2: the instruction whose word it is, its row's bits, and the row that a word's masked bits select. -/
theorem decodeFollowsOpcodeTable : Obligations.DecodeFollowsOpcodeTable :=
  ⟨fun _ _ => decodeWord_eq_ok_iff, fun _ _ h => rowMatch_of_isReadFrom (decodeWord_isReadFrom h),
    fun _ _ => decodeWord_of_rowMatch⟩

/-! ### The illegal words -/

/-- The low nibbles that no row of family 8 has (R74). -/
theorem mem_illegalNibbles8_iff : ∀ n : Nibble,
    n ∈ [0x8#4, 0x9#4, 0xA#4, 0xB#4, 0xC#4, 0xD#4, 0xF#4] ↔
      n ∉ [0x0#4, 0x1#4, 0x2#4, 0x3#4, 0x4#4, 0x5#4, 0x6#4, 0x7#4, 0xE#4] := by decide

theorem decodeFamily8_error_iff {w : Word} :
    (∃ e, decodeFamily8 w = .error e) ↔ fieldN w ∈ [0x8#4, 0x9#4, 0xA#4, 0xB#4, 0xC#4, 0xD#4, 0xF#4] := by
  rw [mem_illegalNibbles8_iff]
  unfold decodeFamily8
  split
  case h_10 => simp_all
  all_goals
    rename_i hn
    simp [hn]

theorem decodeFamilyE_error_iff {w : Word} :
    (∃ e, decodeFamilyE w = .error e) ↔ fieldKK w ∉ [0x9E#8, 0xA1#8] := by
  unfold decodeFamilyE
  split
  case h_3 => simp_all
  all_goals
    rename_i hkk
    simp [hkk]

theorem decodeFamilyF_error_iff {w : Word} :
    (∃ e, decodeFamilyF w = .error e) ↔
      fieldKK w ∉ [0x07#8, 0x0A#8, 0x15#8, 0x18#8, 0x1E#8, 0x29#8, 0x33#8, 0x55#8, 0x65#8] := by
  unfold decodeFamilyF
  split
  case h_10 => simp_all
  all_goals
    rename_i hkk
    simp [hkk]

/-- Settles O3: families 5 and 9 by their low nibble, 8, E and F by their own tables, and no other family refuses. -/
theorem illegalWordsAreTheFiveGroups : Obligations.IllegalWordsAreTheFiveGroups := by
  intro w
  unfold decodeWord
  split
  case h_6 hop | h_10 hop => by_cases hn : fieldN w = 0x0#4 <;> simp [hop, hn]
  case h_9 hop => simp [hop, decodeFamily8_error_iff]
  case h_15 hop => simp [hop, decodeFamilyE_error_iff]
  case h_16 =>
    have hop : fieldOp w = 0xF#4 := nibble_eq_F _ (by simp_all)
    simp [hop, decodeFamilyF_error_iff]
  case h_1 hop | h_2 hop | h_3 hop | h_4 hop | h_5 hop | h_7 hop | h_8 hop | h_11 hop | h_12 hop | h_13 hop
      | h_14 hop => simp [hop]

end Sys2Proof
end

section
/-! SUPPORT. The step at a legal word, and the step that enters a fault: its cause, its record and its frame
(30_encoding.md R80–R82; 60_exceptions.md R205, R208). -/

namespace Sys2Proof.Machine

/-- Settles O6: `step` adds nothing around a legal word's instruction. -/
theorem stepRunsDecodedInstruction : Obligations.StepRunsDecodedInstruction :=
  fun _ _ => step_of_ok

/-- The condition under which a cause is raised (60_exceptions.md R201–R203). -/
def FaultCondition (s : State) : FaultCause → Prop
  | .decodeFailure => ∃ e, decodeWord s.fetchWord = .error e
  | .stackOverflow => 15#8 ≤ s.sp ∧ ∃ nnn, decodeWord s.fetchWord = .ok (.callAddr nnn)
  | .stackUnderflow => s.sp = 0#8 ∧ decodeWord s.fetchWord = .ok .ret

/-- No two causes' conditions hold at once. -/
theorem FaultCondition.unique {s : State} {c c' : FaultCause} (h : FaultCondition s c) (h' : FaultCondition s c') :
    c = c' := by
  cases c with
  | decodeFailure =>
    obtain ⟨e, hd⟩ := h
    cases c' <;> simp_all [FaultCondition]
  | stackOverflow =>
    obtain ⟨-, nnn, hd⟩ := h
    cases c' <;> simp_all [FaultCondition]
  | stackUnderflow =>
    obtain ⟨-, hd⟩ := h
    cases c' <;> simp_all [FaultCondition]

/-- An instruction that leaves the block faulted is a return at `SP = 0` or a call at `SP >= 15`. -/
theorem exec_raises {i : Instr} {s t : State} (hrun : s.run = .running) (h : exec i s = .next t)
    (hfault : t.run ≠ .running) :
    (i = .ret ∧ s.sp = 0#8 ∧ t = s.raise .stackUnderflow (encode i)) ∨
      (∃ nnn, i = .callAddr nnn ∧ 15#8 ≤ s.sp ∧ t = s.raise .stackOverflow (encode i)) := by
  cases exec_controlFlow h with
  | underflow hi hsp => exact Or.inl ⟨hi, hsp, rfl⟩
  | overflow nnn hi hsp => exact Or.inr ⟨nnn, hi, hsp, rfl⟩
  | ret ra hi hsp htop | call nnn hi hsp | jump a ha | skip hi hnone test => exact absurd hrun hfault
  | advance hnone u hpc hrun' hstack hsp => exact absurd (hrun'.trans hrun) hfault

/-- A step that leaves the block faulted raises a cause whose condition holds, with the fetched word in the record. -/
theorem step_raises {s t : State} (h : step s = .next t) (hfault : t.run ≠ .running) :
    ∃ c, FaultCondition s c ∧ t = s.raise c s.fetchWord := by
  obtain ⟨hrun, ⟨i, hd, hexec⟩ | ⟨herr, rfl⟩⟩ := step_cases h
  · obtain ⟨rfl, hsp, rfl⟩ | ⟨nnn, rfl, hsp, rfl⟩ := exec_raises hrun hexec hfault
    · exact ⟨.stackUnderflow, ⟨hsp, hd⟩, by rw [decodeWord_eq_ret hd]⟩
    · exact ⟨.stackOverflow, ⟨hsp, nnn, hd⟩, by rw [decodeWord_eq_callAddr hd]⟩
  · exact ⟨.decodeFailure, herr, rfl⟩

/-- Settles O9: the step raises a cause whose condition holds, and no other cause's condition does. -/
theorem faultingStepChangesOnlyRun : Obligations.FaultingStepChangesOnlyRun := by
  intro s t h hfault
  obtain ⟨c, hc, rfl⟩ := step_raises h hfault
  have hiff : ∀ c', c = c' ↔ FaultCondition s c' := fun c' => ⟨fun e => e ▸ hc, hc.unique⟩
  exact ⟨s.sameBut_raise _ _, c, rfl, hiff .decodeFailure, hiff .stackOverflow, hiff .stackUnderflow⟩

end Sys2Proof.Machine
end

section
/-! SUPPORT. Families 0–5: the words that decode to them, what each does to the screen, PC and the call stack, and that
a return undoes a call (spec 40_control.md R100–R107). -/

namespace Sys2Proof.Machine

/-! ### Decoding a word by its format -/

section
variable {i : Instr} {w : Word} {op : Nibble}

theorem decodeWord_of_op_nnn (hwf : i.WellFormed) (he : encode i = formNNN op (fieldNNN w)) (hop : fieldOp w = op) :
    decodeWord w = .ok i :=
  decodeWord_of_encode_eq hwf (he.trans (formNNN_eq_iff.mpr ⟨hop.symm, rfl⟩))

theorem decodeWord_of_op_x_kk (hwf : i.WellFormed) (he : encode i = formXKK op (fieldX w) (fieldKK w))
    (hop : fieldOp w = op) : decodeWord w = .ok i :=
  decodeWord_of_encode_eq hwf (he.trans (formXKK_eq_iff.mpr ⟨hop.symm, rfl, rfl⟩))

theorem decodeWord_of_op_x_y_n {n : Nibble} (hwf : i.WellFormed) (he : encode i = formXYN op (fieldX w) (fieldY w) n)
    (hop : fieldOp w = op) (hn : fieldN w = n) : decodeWord w = .ok i :=
  decodeWord_of_encode_eq hwf (he.trans (formXYN_eq_iff.mpr ⟨hop.symm, rfl, rfl, hn.symm⟩))

end

/-- Family 5 has no word but those with a low nibble of 0 (decision D12). -/
theorem decodeWord_family5_error {w : Word} (hop : fieldOp w = 0x5#4) (hn : fieldN w ≠ 0x0#4) :
    decodeWord w = .error (.family5 w) := by
  simp [decodeWord, hop, hn]

/-! ### Where PC goes -/

theorem addrOperand_toNat (nnn : Addr) : (addrOperand nnn).toNat = nnn.toNat :=
  BitVec.toNat_setWidth_of_le (by decide)

/-- A 16-bit address below 0x1000 is the operand of its 12 bits. -/
theorem addrOperand_eq_of_toNat_eq {nnn : Addr} {a : Word} (h : a.toNat = nnn.toNat) : addrOperand nnn = a :=
  BitVec.eq_of_toNat_eq ((addrOperand_toNat nnn).trans h.symm)

theorem State.jump_pc_self (s : State) : s.jump s.pc = s := rfl

theorem State.skipIf_beq_pc (s : State) (a b : Byte) :
    (s.skipIf (a == b)).pc = if a = b then s.pc + 4#16 else s.pc + 2#16 := by
  by_cases h : a = b <;> simp [h]

theorem State.skipIf_bne_pc (s : State) (a b : Byte) :
    (s.skipIf (a != b)).pc = if a = b then s.pc + 2#16 else s.pc + 4#16 := by
  by_cases h : a = b <;> simp [h]

/-! ### The call stack -/

theorem State.top?_of_sp_eq {s : State} {k : Fin 16} (hk : s.sp.toNat = k.val) : s.top? = some s.stack[k] := by
  simp [State.top?, hk]

theorem State.top?_congr {s t : State} (hstack : t.stack = s.stack) (hsp : t.sp = s.sp) : t.top? = s.top? := by
  rw [State.top?, State.top?, hstack, hsp]

theorem State.sp_add_one_toNat {s : State} (hsp : s.sp.toNat < 15) : (s.sp + 1#8).toNat = s.sp.toNat + 1 := by
  bv_omega

/-- What was pushed is on top. -/
theorem State.top?_push {s : State} (a : Word) (hsp : s.sp.toNat < 15) : (s.push a).top? = some a := by
  have htop := State.sp_add_one_toNat hsp
  rw [State.top?_of_sp_eq (k := ⟨s.sp.toNat + 1, by omega⟩) htop, State.push_slot, if_pos htop]

/-- A return changes PC and `SP` alone. -/
theorem State.sameBut_pop (s : State) (a : Word) : SameBut [.pc, .sp] s (s.drop.jump a) :=
  (s.sameBut_drop.trans (s.drop.sameBut_jump a)).mono (by simp)

/-- A call changes PC, `SP` and the stack alone. -/
theorem State.sameBut_call (s : State) (a b : Word) : SameBut [.pc, .sp, .stack] s ((s.push a).jump b) :=
  ((s.sameBut_push a).trans ((s.push a).sameBut_jump b)).mono (by simp)

theorem exec_callAddr_of_lt {s : State} (nnn : Addr) (hsp : s.sp.toNat < 15) :
    exec (.callAddr nnn) s = .next ((s.push (s.pc + 2#16)).jump (addrOperand nnn)) :=
  exec_callAddr_push nnn (by bv_omega)

/-- Settles O31: the call leaves `pc0 + 2` on top of the stack and `SP` one higher, and the return takes both back. -/
theorem retUndoesCall : Obligations.RetUndoesCall := by
  intro nnn s t u hroom hcall hstack hsp
  rw [exec_callAddr_of_lt nnn hroom] at hcall
  obtain rfl := Host.Outcome.next.inj hcall
  have hne : u.sp ≠ 0#8 := by
    rw [hsp, State.jump_sp, State.push_sp]
    bv_omega
  have htop : u.top? = some (s.pc + 2#16) :=
    (State.top?_congr (s := s.push (s.pc + 2#16)) hstack hsp).trans (State.top?_push _ hroom)
  have hback : u.sp - 1#8 = s.sp := by
    rw [hsp, State.jump_sp, State.push_sp, BitVec.add_sub_cancel]
  exact ⟨_, exec_ret_pop hne htop, rfl, hback, u.sameBut_pop _⟩

/-- Settles O25: the popped slot is the one `SP` names. -/
theorem retPopsReturnAddress : Obligations.RetPopsReturnAddress := by
  refine ⟨decodeWord_of_encode_eq rfl rfl, fun s k hk hpos => ?_⟩
  have hne : s.sp ≠ 0#8 := by bv_omega
  have hsp : (s.sp - 1#8).toNat = k.val - 1 := by bv_omega
  exact ⟨_, exec_ret_pop hne (State.top?_of_sp_eq hk), rfl, hsp, s.sameBut_pop _⟩

/-- Settles O26: a return raises the fault at `SP = 0`, and above 15 it is the one instruction that stops. -/
theorem retWithoutSlotFaults : Obligations.RetWithoutSlotFaults := fun s =>
  ⟨fun hsp => ⟨_, exec_ret_underflow hsp, rfl, s.sameBut_raise _ _⟩, fun hsp => exec_fault_iff.mpr ⟨rfl, hsp, rfl⟩⟩

/-- Settles O29: below 15 the slot pushed to is slot `SP + 1` as a number. -/
theorem callPushesAndJumps : Obligations.CallPushesAndJumps := by
  refine ⟨fun _ => decodeWord_of_op_nnn rfl rfl, fun nnn s hroom => ?_⟩
  have hsp := State.sp_add_one_toNat hroom
  refine ⟨_, exec_callAddr_of_lt nnn hroom, addrOperand_toNat nnn, hsp, fun k => ?_, s.sameBut_call _ _⟩
  simp only [State.jump_stack, State.push_slot, hsp, eq_comm (a := k.val)]

/-- Settles O30: the record's word is the call's own encoding. -/
theorem callOnFullStackFaults : Obligations.CallOnFullStackFaults := fun nnn s hfull =>
  ⟨_, exec_callAddr_overflow nnn (by bv_omega), rfl, s.sameBut_raise _ _⟩

/-! ### Screen clear, jumps and skips -/

/-- Settles O24: every cell of a cleared framebuffer is 0. -/
theorem clsClearsEveryCell : Obligations.ClsClearsEveryCell :=
  ⟨decodeWord_of_encode_eq rfl rfl, fun s => ⟨_, rfl, s.fb.cell_clear, rfl, (s.sameBut_withFb _).advance⟩⟩

/-- Settles O27: a family 0 word other than the two above its row is SYS, and SYS is a jump. -/
theorem sysJumpsAndPushesNothing : Obligations.SysJumpsAndPushesNothing := by
  refine ⟨fun w hop hcls hret => ?_, fun nnn s => ⟨_, rfl, addrOperand_toNat nnn, s.sameBut_jump _⟩⟩
  rw [decodeWord_family0 hop, decodeFamily0_sysAddr hcls hret]

/-- Settles O28: a jump to where PC already is gives back the state. -/
theorem jpJumps : Obligations.JpJumps := by
  refine ⟨fun _ => decodeWord_of_op_nnn rfl rfl,
    fun nnn s => ⟨_, rfl, addrOperand_toNat nnn, s.sameBut_jump _⟩, fun nnn s hself => ?_⟩
  calc exec (.jpAddr nnn) s
      = .next (s.jump (addrOperand nnn)) := rfl
    _ = .next (s.jump s.pc) := by rw [addrOperand_eq_of_toNat_eq hself]
    _ = .next s := by rw [s.jump_pc_self]

/-- Settles O32: each skip is `skipIf` of its test. -/
theorem immediateSkips : Obligations.ImmediateSkips :=
  ⟨fun _ => decodeWord_of_op_x_kk rfl rfl, fun _ => decodeWord_of_op_x_kk rfl rfl, fun x kk s =>
    ⟨⟨_, rfl, s.skipIf_beq_pc (s.getV x) kk, s.sameBut_skipIf _⟩,
      ⟨_, rfl, s.skipIf_bne_pc (s.getV x) kk, s.sameBut_skipIf _⟩⟩⟩

/-- Settles O33: family 5 by its low nibble, and the skip is `skipIf` of its test. -/
theorem skipIfRegistersEqual : Obligations.SkipIfRegistersEqual :=
  ⟨fun _ => decodeWord_of_op_x_y_n rfl rfl, fun _ => decodeWord_family5_error, fun x y s =>
    ⟨_, rfl, s.skipIf_beq_pc (s.getV x) (s.getV y), s.sameBut_skipIf _⟩⟩

end Sys2Proof.Machine
end

section
/-! SUPPORT. Families 6–8: the words that decode to them, the result and the flag of each, and the order in which the
two are written (spec 41_alu.md R120–R130, decision D9). -/

namespace Sys2Proof.Machine

/-- A row that ignores `y` decodes by its `op` and its `n` alone. -/
theorem decodeWord_of_op_x_n {i : Instr} {w : Word} {op n : Nibble} (hi : i.ignoredBits = 0x00F0#16)
    (hwf : i.WellFormed) (he : encode i = formXYN op (fieldX w) 0x0#4 n) (hop : fieldOp w = op) (hn : fieldN w = n) :
    decodeWord w = .ok i :=
  decodeWord_of_isReadFrom ((isReadFrom_iff_of_ignores_y hi hwf he).mpr ⟨hop, rfl, hn⟩)

/-! ### The flags and the results, as numbers -/

section
variable (a b : Byte)

theorem flagByte_carryOut : flagByte (carryOut a b) = if a.toNat + b.toNat > 255 then 0x01#8 else 0x00#8 := by
  simp [flagByte, carryOut]

theorem flagByte_notBorrow : flagByte (notBorrow a b) = if b.toNat ≤ a.toNat then 0x01#8 else 0x00#8 := by
  simp [flagByte, notBorrow]

theorem flagByte_strictlyAbove : flagByte (strictlyAbove a b) = if a.toNat < b.toNat then 0x01#8 else 0x00#8 := by
  simp [flagByte, strictlyAbove]

theorem flagByte_bitOutLow_toNat : (flagByte (bitOutLow a)).toNat = a.toNat % 2 := by
  have hbit : bitOutLow a = decide (a.toNat % 2 = 1) := Nat.testBit_zero a.toNat
  obtain h | h := Nat.mod_two_eq_zero_or_one a.toNat <;> simp [flagByte, hbit, h]

theorem flagByte_bitOutHigh_toNat : (flagByte (bitOutHigh a)).toNat = a.toNat / 128 := by
  have hbit : bitOutHigh a = decide (128 ≤ a.toNat) := BitVec.msb_eq_decide a
  have hlt : a.toNat < 256 := a.isLt
  by_cases h : 128 ≤ a.toNat
  · have hone : a.toNat / 128 = 1 := by omega
    simp [flagByte, hbit, h, hone]
  · have hzero : a.toNat / 128 = 0 := Nat.div_eq_of_lt (Nat.lt_of_not_le h)
    simp [flagByte, hbit, h, hzero]

/-- The difference modulo 2^8, written so that no subtraction goes below 0. -/
theorem byte_sub_toNat : (a - b).toNat = (a.toNat + 256 - b.toNat) % 256 := by
  have hb : b.toNat < 256 := b.isLt
  rw [BitVec.toNat_sub]
  congr 1
  omega

theorem vfShiftSelf_shr : vfShiftSelf 0x6 a = a >>> 1 := rfl

theorem vfShiftSelf_shl : vfShiftSelf 0xE a = a <<< 1 := rfl

end

/-! ### The destination and VF after the writes -/

section
variable (s : State) (x : Nibble)

theorem State.getV_setV_same (b : Byte) : (s.setV x b).getV x = b := by simp

theorem State.getV_setResultThenFlag_vf (r : Byte) (f : Bool) : (s.setResultThenFlag x r f).getV vf = flagByte f := by
  simp

theorem State.getV_setResultThenFlag_same {x : Nibble} (hx : x ≠ vf) (r : Byte) (f : Bool) :
    (s.setResultThenFlag x r f).getV x = r := by
  simp [hx]

/-- The result stands in the destination, VF included where `vf_shift_self` of the sub-nibble is that result. -/
theorem State.getV_setFlagThenShift_same {n : Nibble} {r : Byte} (hself : vfShiftSelf n (s.getV x) = r) (f : Bool) :
    (s.setFlagThenShift n x r f).getV x = r := by
  simp [hself]

theorem State.getV_setFlagThenShift_vf {x : Nibble} (hx : x ≠ vf) (n : Nibble) (r : Byte) (f : Bool) :
    (s.setFlagThenShift n x r f).getV vf = flagByte f := by
  simp [hx.symm]

/-- A shift changes its register, VF and PC alone. -/
theorem State.sameBut_shift (n : Nibble) (r : Byte) (f : Bool) :
    SameBut [.reg x, .reg vf, .pc] s (s.setFlagThenShift n x r f).advance :=
  (s.sameBut_setFlagThenShift n x r f).advance.mono (by simp)

end

/-! ### Loads, copies and bitwise operations -/

/-- Settles O35: each writes one byte to `V[x]`, the sum being that of bit vectors. -/
theorem immediateLoadAndAdd : Obligations.ImmediateLoadAndAdd :=
  ⟨fun _ => decodeWord_of_op_x_kk rfl rfl, fun _ => decodeWord_of_op_x_kk rfl rfl, fun x kk s =>
    ⟨⟨_, rfl, s.getV_setV_same x kk, rfl, (s.sameBut_setV x _).advance⟩,
      ⟨_, rfl, (congrArg BitVec.toNat (s.getV_setV_same x _)).trans (BitVec.toNat_add _ _), rfl,
        (s.sameBut_setV x _).advance⟩⟩⟩

/-- Settles O36: each writes one byte to `V[x]`, whose bits the library's lemmas give. -/
theorem copyAndBitwise : Obligations.CopyAndBitwise := by
  refine ⟨fun _ => decodeWord_of_op_x_y_n rfl rfl, fun _ => decodeWord_of_op_x_y_n rfl rfl,
    fun _ => decodeWord_of_op_x_y_n rfl rfl, fun _ => decodeWord_of_op_x_y_n rfl rfl, fun x y s => ?_⟩
  have hbit (b : Byte) (k : Nat) : ((s.setV x b).getV x).getLsbD k = b.getLsbD k := by rw [s.getV_setV_same]
  exact ⟨⟨_, rfl, s.getV_setV_same x _, rfl, (s.sameBut_setV x _).advance⟩,
    ⟨_, rfl, fun k _ => (hbit _ k).trans BitVec.getLsbD_or, rfl, (s.sameBut_setV x _).advance⟩,
    ⟨_, rfl, fun k _ => (hbit _ k).trans BitVec.getLsbD_and, rfl, (s.sameBut_setV x _).advance⟩,
    ⟨_, rfl, fun k _ => (hbit _ k).trans BitVec.getLsbD_xor, rfl, (s.sameBut_setV x _).advance⟩⟩

/-! ### Sums and differences: the flag is written last -/

/-- Settles O37: VF ends as the carry for every `x`, and any other `V[x]` as the sum. -/
theorem addSetsCarry : Obligations.AddSetsCarry := by
  refine ⟨fun _ => decodeWord_of_op_x_y_n rfl rfl, fun x y s => ⟨_, rfl, ?flag, fun hx => ?result, rfl,
    (s.sameBut_setResultThenFlag x _ _).advance⟩⟩
  case flag => rw [State.advance_getV, State.getV_setResultThenFlag_vf, flagByte_carryOut]
  case result =>
    rw [State.advance_getV, State.getV_setResultThenFlag_same s hx]
    exact BitVec.toNat_add _ _

/-- Settles O38: VF ends as the not-borrow for every `x`, and any other `V[x]` as the difference. -/
theorem subSetsNotBorrow : Obligations.SubSetsNotBorrow := by
  refine ⟨fun _ => decodeWord_of_op_x_y_n rfl rfl, fun x y s => ⟨_, rfl, ?flag, fun hx => ?result, rfl,
    (s.sameBut_setResultThenFlag x _ _).advance⟩⟩
  case flag => rw [State.advance_getV, State.getV_setResultThenFlag_vf, flagByte_notBorrow]
  case result => rw [State.advance_getV, State.getV_setResultThenFlag_same s hx, byte_sub_toNat]

/-- Settles O39: VF ends as the strict comparison for every `x`, and any other `V[x]` as the reverse difference. -/
theorem subnSetsStrictlyAbove : Obligations.SubnSetsStrictlyAbove := by
  refine ⟨fun _ => decodeWord_of_op_x_y_n rfl rfl, fun x y s => ⟨_, rfl, ?flag, fun hx => ?result, rfl,
    (s.sameBut_setResultThenFlag x _ _).advance⟩⟩
  case flag => rw [State.advance_getV, State.getV_setResultThenFlag_vf, flagByte_strictlyAbove]
  case result => rw [State.advance_getV, State.getV_setResultThenFlag_same s hx, byte_sub_toNat]

/-! ### Shifts: the result is written last -/

/-- Settles O40: both rows ignore `y`, and `vf_shift_self` is the shifted value. -/
theorem shiftsInPlace : Obligations.ShiftsInPlace := by
  refine ⟨fun _ => decodeWord_of_op_x_n rfl rfl rfl, fun _ => decodeWord_of_op_x_n rfl rfl rfl, fun x s =>
    ⟨⟨_, rfl, ?shr, fun hx => ?lowBit, rfl, s.sameBut_shift x _ _ _⟩,
      ⟨_, rfl, ?shl, fun hx => ?highBit, rfl, s.sameBut_shift x _ _ _⟩⟩⟩
  case shr =>
    rw [State.advance_getV, State.getV_setFlagThenShift_same s x (vfShiftSelf_shr _), BitVec.toNat_ushiftRight,
      Nat.shiftRight_one]
  case lowBit => rw [State.advance_getV, State.getV_setFlagThenShift_vf s hx, flagByte_bitOutLow_toNat]
  case shl =>
    rw [State.advance_getV, State.getV_setFlagThenShift_same s x (vfShiftSelf_shl _), BitVec.toNat_shiftLeft,
      Nat.shiftLeft_eq]
  case highBit => rw [State.advance_getV, State.getV_setFlagThenShift_vf s hx, flagByte_bitOutHigh_toNat]

end Sys2Proof.Machine
end

section
/-! SUPPORT. Families 9–C and the index arithmetic of family F: the words that decode to them, the addresses as numbers,
and the one draw of CXKK (spec 42_index_jump_random.md R140–R145, 45_fx.md R187, R188). -/

namespace Sys2Proof.Machine

/-! ### Decoding -/

/-- Family 9 has no word but those with a low nibble of 0 (decision D12). -/
theorem decodeWord_family9_error {w : Word} (hop : fieldOp w = 0x9#4) (hn : fieldN w ≠ 0x0#4) :
    decodeWord w = .error (.family9 w) := by
  simp [decodeWord, hop, hn]

/-- A row whose `kk` is a sub-opcode decodes by its `op` and that `kk`. -/
theorem decodeWord_of_op_x_subop {i : Instr} {w : Word} {op : Nibble} {kk : Byte} (hwf : i.WellFormed)
    (he : encode i = formXKK op (fieldX w) kk) (hop : fieldOp w = op) (hkk : fieldKK w = kk) : decodeWord w = .ok i :=
  decodeWord_of_op_x_kk hwf (hkk ▸ he) hop

/-! ### Addresses as numbers -/

theorem byteOperand_toNat (b : Byte) : (byteOperand b).toNat = b.toNat :=
  BitVec.toNat_setWidth_of_le (by decide)

/-- Five times a byte is at most 1275, so a glyph's address is not reduced. -/
theorem glyphAddr_toNat (b : Byte) : (glyphAddr b).toNat = b.toNat * 5 := by
  have hb : b.toNat < 256 := b.isLt
  exact Nat.mod_eq_of_lt (by omega)

theorem add_byteOperand_toNat (a : Word) (b : Byte) : (a + byteOperand b).toNat = (a.toNat + b.toNat) % 65536 := by
  rw [BitVec.toNat_add, byteOperand_toNat]

/-- A 12-bit address and a byte sum to less than 2^16, so BNNN's sum does not wrap. -/
theorem addrOperand_add_byteOperand_toNat (nnn : Addr) (b : Byte) :
    (addrOperand nnn + byteOperand b).toNat = nnn.toNat + b.toNat := by
  have hnnn : nnn.toNat < 4096 := nnn.isLt
  have hb : b.toNat < 256 := b.isLt
  rw [add_byteOperand_toNat, addrOperand_toNat]
  exact Nat.mod_eq_of_lt (by omega)

/-! ### The random byte -/

/-- Masking by `m` leaves no bit outside `m`. -/
theorem byte_and_and_not_eq_zero (b m : Byte) : (b &&& m) &&& ~~~ m = 0x00#8 := by
  rw [BitVec.and_assoc, BitVec.and_not_self]
  exact BitVec.and_zero

/-- CXKK changes the random source, its register and PC alone. -/
theorem State.sameBut_rnd (s : State) (x : Nibble) (b : Byte) :
    SameBut [.reg x, .rng, .pc] s (s.drawByte.setV x b).advance :=
  (s.sameBut_drawByte.trans (s.drawByte.sameBut_setV x b)).advance.mono (by simp)

/-! ### The statements -/

/-- Settles O34: family 9 by its low nibble, and the skip is `skipIf` of its test. -/
theorem skipIfRegistersDiffer : Obligations.SkipIfRegistersDiffer :=
  ⟨fun _ => decodeWord_of_op_x_y_n rfl rfl, fun _ => decodeWord_family9_error, fun x y s =>
    ⟨_, rfl, s.skipIf_bne_pc (s.getV x) (s.getV y), s.sameBut_skipIf _⟩⟩

/-- Settles O41: each is `setI` of an address, whose number the lemma about that address gives. -/
theorem indexWrites : Obligations.IndexWrites :=
  ⟨fun _ => decodeWord_of_op_nnn rfl rfl, fun _ => decodeWord_of_op_x_subop rfl rfl,
    fun _ => decodeWord_of_op_x_subop rfl rfl,
    fun nnn s => ⟨_, rfl, addrOperand_toNat nnn, rfl, (s.sameBut_setI _).advance⟩,
    fun x s => ⟨⟨_, rfl, add_byteOperand_toNat s.i (s.getV x), rfl, (s.sameBut_setI _).advance⟩,
      ⟨_, rfl, glyphAddr_toNat (s.getV x), rfl, (s.sameBut_setI _).advance⟩⟩⟩

/-- Settles O42: the jump goes to a sum that does not wrap. -/
theorem jumpPlusV0 : Obligations.JumpPlusV0 :=
  ⟨fun _ => decodeWord_of_op_nnn rfl rfl, fun nnn s =>
    ⟨_, rfl, addrOperand_add_byteOperand_toNat nnn (s.getV 0x0#4), s.sameBut_jump _⟩⟩

/-- Settles O43: the byte written is the draw AND `kk`, and the source afterwards is the one after that draw. -/
theorem randomByteIsMaskedAndDrawnOnce : Obligations.RandomByteIsMaskedAndDrawnOnce := by
  refine ⟨fun _ => decodeWord_of_op_x_kk rfl rfl, fun x kk s => ?_⟩
  have hreg : (s.drawByte.setV x (s.rng.draw.1 &&& kk)).advance.getV x = s.rng.draw.1 &&& kk :=
    s.drawByte.getV_setV_same x _
  refine ⟨_, rfl, hreg, ?outside, s.rng.draw_drawn, s.rng.draw_seed, fun b bs hsup => ⟨?byte, ?rest⟩, rfl,
    s.sameBut_rnd x _⟩
  case outside => rw [hreg, byte_and_and_not_eq_zero]
  case byte => rw [hreg, RandomSource.draw_supplied hsup]
  case rest => exact congrArg (fun d => d.2.supplied) (RandomSource.draw_supplied hsup)

end Sys2Proof.Machine
end

section
/-! SUPPORT. Family D: the words that decode to DXYN, the sprite it XORs into the screen, and that a second draw takes
the sprite off again (spec 43_draw.md R151, R152). -/

namespace Sys2Proof.Machine

/-- Every word of family D is a DXYN. -/
theorem decodeWord_familyD {w : Word} (hop : fieldOp w = 0xD#4) :
    decodeWord w = .ok (.drw (fieldX w) (fieldY w) (fieldN w)) :=
  decodeWord_of_op_x_y_n rfl rfl hop rfl

/-- The pixels of the sprite that DXYN draws in `s`. -/
def drwPixel (s : State) (x y n : Nibble) : BitVec 5 → BitVec 6 → Bool :=
  spritePixel s s.i (s.getV x) (s.getV y) n.toNat

/-- A sprite has at most 15 rows, so none of them wraps onto another. -/
theorem drw_rows_le (n : Nibble) : n.toNat ≤ 32 := by
  have hn : n.toNat < 16 := n.isLt
  omega

section
variable {x y n : Nibble} {s t u : State}

/-! ### One draw -/

/-- A draw changes the screen, VF and PC alone. -/
theorem exec_drw_frame (h : exec (.drw x y n) s = .next t) : SameBut [.fb, .reg vf, .pc] s t :=
  exec_sameBut h

theorem exec_drw_cell (h : exec (.drw x y n) s = .next t) (r : BitVec 5) (c : BitVec 6) :
    t.fb.cell r c = Bool.xor (s.fb.cell r c) (drwPixel s x y n r c) := by
  obtain rfl := Host.Outcome.next.inj h
  exact s.cell_drawRows s.i (s.getV x) (s.getV y) n.toNat (drw_rows_le n) r c

/-- A cell goes from 1 to 0 exactly where a 1 of the sprite falls on a lit cell. -/
theorem exec_drw_turned_off_iff (h : exec (.drw x y n) s = .next t) (r : BitVec 5) (c : BitVec 6) :
    s.fb.cell r c = true ∧ t.fb.cell r c = false ↔ s.fb.cell r c = true ∧ drwPixel s x y n r c = true := by
  rw [exec_drw_cell h r c]
  exact and_congr_right fun hlit => by simp [hlit]

/-- VF is the flag of the cells that went from 1 to 0. -/
theorem exec_drw_vf (h : exec (.drw x y n) s = .next t) :
    ∃ hit : Bool, t.getV vf = flagByte hit ∧ (hit = true ↔ ∃ r c, s.fb.cell r c = true ∧ t.fb.cell r c = false) := by
  simp only [exec_drw_turned_off_iff h]
  obtain rfl := Host.Outcome.next.inj h
  exact ⟨_, State.getV_setV_same _ vf _, s.hit_drawRows s.i (s.getV x) (s.getV y) n.toNat (drw_rows_le n)⟩

theorem exec_drw_vf_of_turned_off (h : exec (.drw x y n) s = .next t)
    (hoff : ∃ r c, s.fb.cell r c = true ∧ t.fb.cell r c = false) : t.getV vf = 0x01#8 := by
  obtain ⟨hit, hvf, hiff⟩ := exec_drw_vf h
  rw [hvf, hiff.mpr hoff]
  rfl

theorem exec_drw_vf_of_none_turned_off (h : exec (.drw x y n) s = .next t)
    (hkept : ∀ r c, s.fb.cell r c = true → t.fb.cell r c = true) : t.getV vf = 0x00#8 := by
  obtain ⟨hit, hvf, hiff⟩ := exec_drw_vf h
  have hmiss : hit = false := by
    rw [← Bool.not_eq_true, hiff]
    rintro ⟨r, c, hlit, hoff⟩
    exact Bool.false_ne_true (hoff.symm.trans (hkept r c hlit))
  rw [hvf, hmiss]
  rfl

/-! ### Two draws -/

/-- With coordinates not in VF, a draw leaves the next draw's sprite as its own was: neither `I`, nor the coordinates,
nor memory changed. -/
theorem exec_drw_drwPixel (hx : x ≠ vf) (hy : y ≠ vf) (h : exec (.drw x y n) s = .next t) :
    drwPixel t x y n = drwPixel s x y n := by
  have hframe := exec_drw_frame h
  have hi : t.i = s.i := hframe.index (by simp)
  have hvx : t.getV x = s.getV x := hframe.reg x (by simpa using hx)
  have hvy : t.getV y = s.getV y := hframe.reg y (by simpa using hy)
  have hmem : ∀ a, t.memRead a = s.memRead a := hframe.mem (by simp)
  funext r c
  simp only [drwPixel, spritePixel, hi, hvx, hvy, hmem]

/-- The sprite XORed twice into a cell leaves it as it was. -/
theorem exec_drw_twice_cell (hx : x ≠ vf) (hy : y ≠ vf) (ht : exec (.drw x y n) s = .next t)
    (hu : exec (.drw x y n) t = .next u) (r : BitVec 5) (c : BitVec 6) : u.fb.cell r c = s.fb.cell r c := by
  rw [exec_drw_cell hu, exec_drw_drwPixel hx hy ht, exec_drw_cell ht, Bool.xor_assoc, Bool.xor_self, Bool.xor_false]

end

/-! ### The statements -/

/-- Settles O44: each cell is XORed with the sprite's pixel, and VF is the flag of the cells that went from 1 to 0. -/
theorem drawXorsSpriteAndReportsCollision : Obligations.DrawXorsSpriteAndReportsCollision := by
  refine ⟨fun w => decodeWord_familyD, fun x y n s => ?_⟩
  obtain ⟨t, h⟩ : ∃ t, exec (.drw x y n) s = .next t := ⟨_, rfl⟩
  have hpc : t.pc = s.pc + 2#16 := by
    obtain rfl := Host.Outcome.next.inj h
    rfl
  exact ⟨t, h, exec_drw_cell h, exec_drw_vf_of_turned_off h, exec_drw_vf_of_none_turned_off h, hpc, exec_drw_frame h⟩

/-- Settles O45: the second draw XORs the same sprite, so a cell that the first draw lit goes back to 0. -/
theorem drawingTwiceRestoresScreen : Obligations.DrawingTwiceRestoresScreen := by
  intro x y n s t u hx hy ht hu
  have hrestored := exec_drw_twice_cell hx hy ht hu
  refine ⟨FrameBuffer.ext_cell hrestored, fun ⟨r, c, hdark, hpixel⟩ => ?_⟩
  have hlit : t.fb.cell r c = true := (exec_drw_cell ht r c).trans (congrArg₂ Bool.xor hdark hpixel)
  exact exec_drw_vf_of_turned_off hu ⟨r, c, hlit, (hrestored r c).trans hdark⟩

end Sys2Proof.Machine
end

section
/-! SUPPORT. Family E and the host's key and view operations: what the key test decides, where a skip by it goes, and
what `SetKey` does to the latch (spec 44_keys.md R170–R174). -/

namespace Sys2Proof.Machine

section
variable (s : State)

/-! ### The key skips -/

/-- The key test as an equation between the latch and the code, both as numbers. -/
theorem State.keyIsPressed_iff_key_map (c : Byte) :
    s.keyIsPressed c = true ↔ s.key.map BitVec.toNat = some c.toNat := by
  rw [State.keyIsPressed_iff, Option.map_eq_some_iff]

theorem State.skipIf_keyIsPressed_pc (c : Byte) :
    (s.skipIf (s.keyIsPressed c)).pc =
      if s.key.map BitVec.toNat = some c.toNat then s.pc + 4#16 else s.pc + 2#16 := by
  simp only [← s.keyIsPressed_iff_key_map c]
  cases s.keyIsPressed c <;> simp

theorem State.skipIf_not_keyIsPressed_pc (c : Byte) :
    (s.skipIf (!s.keyIsPressed c)).pc =
      if s.key.map BitVec.toNat = some c.toNat then s.pc + 2#16 else s.pc + 4#16 := by
  simp only [← s.keyIsPressed_iff_key_map c]
  cases s.keyIsPressed c <;> simp

/-! ### The latch under `SetKey` -/

@[simp] theorem State.getV_withKey (k : Option Nibble) (j : Nibble) : State.getV { s with key := k } j = s.getV j := rfl
@[simp] theorem State.memRead_withKey (k : Option Nibble) (a : Word) :
    State.memRead { s with key := k } a = s.memRead a := rfl

theorem State.sameBut_withKey (k : Option Nibble) : SameBut [.key] s { s with key := k } := by constructor <;> simp

theorem State.perform_setKey_none : s.perform (.setKey none) = .next ({ s with key := none }, .done) := rfl

theorem State.perform_setKey_code {c : Nat} (hc : c ≤ 15) :
    s.perform (.setKey (some c)) = .next ({ s with key := some (BitVec.ofNat 4 c) }, .done) := by
  simp [State.perform, State.setKey, withDone, hc]

theorem State.perform_setKey_refused {c : Nat} (hc : 15 < c) :
    s.perform (.setKey (some c)) = .refused .keyCodeInvalid := by
  simp [State.perform, State.setKey, withDone, Nat.not_le.mpr hc]

/-- A code from 0 to 15 is latched as itself. -/
theorem ofNat_keyCode_toNat {c : Nat} (hc : c ≤ 15) : (BitVec.ofNat 4 c).toNat = c :=
  Nat.mod_eq_of_lt (Nat.lt_succ_of_le hc)

end

/-! ### The statements -/

/-- Settles O46: each key skip is `skipIf` of the key test, or of its complement. -/
theorem keySkips : Obligations.KeySkips :=
  ⟨fun _ => decodeWord_of_op_x_subop rfl rfl, fun _ => decodeWord_of_op_x_subop rfl rfl,
    State.keyIsPressed_iff_key_map, fun x s =>
    ⟨⟨_, rfl, s.skipIf_keyIsPressed_pc (s.getV x), s.sameBut_skipIf _⟩,
      ⟨_, rfl, s.skipIf_not_keyIsPressed_pc (s.getV x), s.sameBut_skipIf _⟩⟩⟩

/-- Settles O58: `SetKey` by its three cases, and the two views return the state they were given. -/
theorem hostKeyAndViews : Obligations.HostKeyAndViews :=
  fun s => ⟨⟨_, s.perform_setKey_none, rfl, s.sameBut_withKey _⟩,
    fun _ hc => ⟨_, s.perform_setKey_code hc, congrArg some (ofNat_keyCode_toNat hc), s.sameBut_withKey _⟩,
    fun _ => s.perform_setKey_refused, rfl, rfl⟩

end Sys2Proof.Machine
end

section
/-! SUPPORT. Family F's timer, key wait and memory transfers: the value a timer reading gives, the bytes FX33 and FX55
store and the registers FX65 loads (spec 45_fx.md R180–R191). -/

namespace Sys2Proof.Machine

/-! ### The timer -/

section
variable {x : Nibble} {s t : State}

/-- FX07 takes one reading of the clock. -/
theorem exec_ldVxDt_clock (h : exec (.ldVxDt x) s = .next t) :
    s.clock.last ≤ t.clock.last ∧ t.clock.reads = s.clock.reads + 1 := by
  obtain rfl := Host.Outcome.next.inj h
  simp [Clock.le_now]

/-- FX07 reads the magnitude less the whole ticks from the start to the reading it took, stopping at 0. -/
theorem exec_ldVxDt_reg (h : exec (.ldVxDt x) s = .next t) :
    (t.getV x).toNat = s.tInit.toNat - (t.clock.last - s.tStart) / 16000000 := by
  obtain rfl := Host.Outcome.next.inj h
  simp [State.timerGet, timerValue_toNat]

/-- FX07 keeps the timer's fields. -/
theorem exec_ldVxDt_timer (h : exec (.ldVxDt x) s = .next t) : t.tStart = s.tStart ∧ t.tInit = s.tInit :=
  (exec_sameBut h).timer (by simp [mayChange])

/-- FX15 stores `V[x]` as the magnitude and the reading it took as the start. -/
theorem exec_ldDtVx_timer (h : exec (.ldDtVx x) s = .next t) : t.tStart = t.clock.last ∧ t.tInit = s.getV x := by
  obtain rfl := Host.Outcome.next.inj h
  simp

/-- A timer of magnitude 0 reads 0, whenever it was started. -/
theorem State.timerGet_of_tInit_zero {u : State} (h : u.tInit = 0x00#8) : u.timerGet = 0x00#8 := by
  rw [State.timerGet, h, timerValue_zero]

/-- A later reading of the same timer counts at least as many ticks. -/
theorem exec_ldVxDt_antitone {y : Nibble} {s' u : State} (ht : exec (.ldVxDt x) s = .next t)
    (hstart : s'.tStart = t.tStart) (hinit : s'.tInit = t.tInit) (hlater : t.clock.last ≤ s'.clock.last)
    (hu : exec (.ldVxDt y) s' = .next u) : (u.getV y).toNat ≤ (t.getV x).toNat := by
  obtain ⟨htStart, htInit⟩ := exec_ldVxDt_timer ht
  obtain ⟨hclock, -⟩ := exec_ldVxDt_clock hu
  have hticks : (t.clock.last - s.tStart) / 16000000 ≤ (u.clock.last - s.tStart) / 16000000 :=
    Nat.div_le_div_right (Nat.sub_le_sub_right (hlater.trans hclock) _)
  rw [exec_ldVxDt_reg ht, exec_ldVxDt_reg hu, hstart, hinit, htStart, htInit]
  exact Nat.sub_le_sub_left hticks _

/-- A reading of the timer that FX15 set counts the ticks since that FX15. -/
theorem exec_ldVxDt_reg_after_ldDtVx {y : Nibble} {s' u : State} (ht : exec (.ldDtVx x) s = .next t)
    (hstart : s'.tStart = t.tStart) (hinit : s'.tInit = t.tInit) (hu : exec (.ldVxDt y) s' = .next u) :
    (u.getV y).toNat = (s.getV x).toNat - (u.clock.last - t.clock.last) / 16000000 := by
  obtain ⟨htStart, htInit⟩ := exec_ldDtVx_timer ht
  rw [exec_ldVxDt_reg hu, hstart, hinit, htStart, htInit]

end

/-! ### The decimal digits of a byte -/

theorem hundreds_toNat (b : Byte) : (hundreds b).toNat = b.toNat / 100 := by
  have hb : b.toNat < 256 := b.isLt
  exact Nat.mod_eq_of_lt (by omega)

theorem tens_toNat (b : Byte) : (tens b).toNat = b.toNat / 10 % 10 :=
  Nat.mod_eq_of_lt (by omega)

theorem ones_toNat (b : Byte) : (ones b).toNat = b.toNat % 10 :=
  Nat.mod_eq_of_lt (by omega)

/-! ### Addresses at an offset -/

/-- Different offsets below 4096 from one address mask to different bytes. -/
theorem maskAddr_add_ne (a : Word) {j k : Nat} (hj : j < 4096) (hk : k < 4096) (hne : j ≠ k) :
    maskAddr (a + BitVec.ofNat 16 j) ≠ maskAddr (a + BitVec.ofNat 16 k) := by
  have hoffset : (a + BitVec.ofNat 16 j - a).toNat % 4096 = j := (maskAddr_eq_iff a _ j hj).mp rfl
  rwa [Ne, maskAddr_eq_iff a _ k hk, hoffset]

/-- Memory after FX33: the last of the three stores to an address is the one read there. -/
theorem exec_ldBVx_memRead {x : Nibble} {s t : State} (h : exec (.ldBVx x) s = .next t) (b : Word) :
    t.memRead b =
      if maskAddr b = maskAddr (s.i + 2#16) then ones (s.getV x)
      else if maskAddr b = maskAddr (s.i + 1#16) then tens (s.getV x)
      else if maskAddr b = maskAddr s.i then hundreds (s.getV x) else s.memRead b := by
  obtain rfl := Host.Outcome.next.inj h
  simp only [State.advance_memRead, State.memRead_memWrite]

/-! ### Registers stored and loaded in a row -/

section
variable (s : State) (a : Word) {n : Nat}

theorem State.memRead_storeRegs_at (hn : n ≤ 16) {k : Nibble} (hk : k.toNat < n) :
    (s.storeRegs a n).memRead (a + k.setWidth 16) = s.getV k := by
  have hoffset : (a + k.setWidth 16 - a).toNat % 4096 = k.toNat :=
    (maskAddr_eq_iff a _ k.toNat (by omega)).mp (by rw [BitVec.ofNat_toNat])
  rw [State.memRead_storeRegs s a n hn, hoffset, if_pos hk, BitVec.ofNat_toNat, BitVec.setWidth_eq]

theorem State.memRead_storeRegs_of_ne (hn : n ≤ 16) {b : Word}
    (hb : ∀ k : Nibble, k.toNat < n → maskAddr b ≠ maskAddr (a + k.setWidth 16)) :
    (s.storeRegs a n).memRead b = s.memRead b := by
  rw [State.memRead_storeRegs s a n hn]
  refine if_neg fun hlt => ?_
  have hk : (BitVec.ofNat 4 ((b - a).toNat % 4096)).toNat = (b - a).toNat % 4096 :=
    Nat.mod_eq_of_lt (by omega)
  refine hb (BitVec.ofNat 4 ((b - a).toNat % 4096)) (by rwa [hk]) ?_
  rw [← BitVec.ofNat_toNat, hk, maskAddr_eq_iff a b _ (by omega)]

theorem State.getV_loadRegs_of_lt (hn : n ≤ 16) {k : Nibble} (hk : k.toNat < n) :
    (s.loadRegs a n).getV k = s.memRead (a + k.setWidth 16) := by
  rw [State.getV_loadRegs s a n hn, if_pos hk, BitVec.ofNat_toNat]

end

/-- `I` after FX55, as a number. -/
theorem add_succ_nibble_toNat (a : Word) (x : Nibble) :
    (a + BitVec.ofNat 16 (x.toNat + 1)).toNat = (a.toNat + x.toNat + 1) % 65536 := by
  rw [BitVec.toNat_add, BitVec.toNat_ofNat, Nat.add_mod_mod, Nat.add_assoc]

/-! ### The statements -/

/-- Settles O49: a later reading counts at least as many ticks; after FX15 of `m` the count reaches `m` exactly from `m`
times 16 ms on, and is 0 before the first tick. -/
theorem timerNeverRisesAndExpires : Obligations.TimerNeverRisesAndExpires := by
  refine ⟨fun x y s t s' u => exec_ldVxDt_antitone, fun x y s t s' u ht hstart hinit _ hu => ?_⟩
  have hread := exec_ldVxDt_reg_after_ldDtVx ht hstart hinit hu
  refine ⟨?zero, fun hlt => ?full⟩
  case zero =>
    rw [← BitVec.toNat_inj, hread, BitVec.toNat_ofNat, Nat.zero_mod, Nat.sub_eq_zero_iff_le,
      Nat.le_div_iff_mul_le (by decide)]
  case full => rw [← BitVec.toNat_inj, hread, Nat.div_eq_of_lt hlt, Nat.sub_zero]

/-- Settles O52: the three addresses mask to different bytes, so each digit is still there after the other stores. -/
theorem bcdDigitsAreStored : Obligations.BcdDigitsAreStored := by
  refine ⟨fun _ => decodeWord_of_op_x_subop rfl rfl, fun x s => ?_⟩
  obtain ⟨t, h⟩ : ∃ t, exec (.ldBVx x) s = .next t := ⟨_, rfl⟩
  have hmem := exec_ldBVx_memRead h
  have h01 : maskAddr s.i ≠ maskAddr (s.i + 1#16) := by
    simpa using maskAddr_add_ne s.i (j := 0) (k := 1) (by decide) (by decide) (by decide)
  have h02 : maskAddr s.i ≠ maskAddr (s.i + 2#16) := by
    simpa using maskAddr_add_ne s.i (j := 0) (k := 2) (by decide) (by decide) (by decide)
  have h12 : maskAddr (s.i + 1#16) ≠ maskAddr (s.i + 2#16) :=
    maskAddr_add_ne s.i (by decide) (by decide) (by decide)
  have hpc : t.pc = s.pc + 2#16 := by
    obtain rfl := Host.Outcome.next.inj h
    rfl
  refine ⟨t, h, ?hundreds, ?tens, ?ones, fun b hb0 hb1 hb2 => ?others, hpc, exec_sameBut h⟩
  case hundreds => rw [hmem, if_neg h02, if_neg h01, if_pos rfl, hundreds_toNat]
  case tens => rw [hmem, if_neg h12, if_pos rfl, tens_toNat]
  case ones => rw [hmem, if_pos rfl, ones_toNat]
  case others => rw [hmem, if_neg hb2, if_neg hb1, if_neg hb0]

/-- Settles O53: the bytes are those of `storeRegs`, and `I` moves on by the number of registers stored. -/
theorem registersAreStoredAndIndexAdvances : Obligations.RegistersAreStoredAndIndexAdvances := by
  refine ⟨fun _ => decodeWord_of_op_x_subop rfl rfl, fun x s => ?_⟩
  have hn : x.toNat + 1 ≤ 16 := x.isLt
  refine ⟨_, rfl, fun k hk => s.memRead_storeRegs_at s.i hn (Nat.lt_succ_of_le hk), fun b hb => ?others,
    add_succ_nibble_toNat s.i x, ?pc, exec_sameBut (i := .ldMemVx x) rfl⟩
  case others => exact s.memRead_storeRegs_of_ne s.i hn fun k hk => hb k (Nat.le_of_lt_succ hk)
  case pc => simp

/-- Settles O54: the registers are those of `loadRegs`, which keeps everything else. -/
theorem registersAreLoadedAndIndexKept : Obligations.RegistersAreLoadedAndIndexKept := by
  refine ⟨fun _ => decodeWord_of_op_x_subop rfl rfl, fun x s => ?_⟩
  have hn : x.toNat + 1 ≤ 16 := x.isLt
  refine ⟨_, rfl, fun k hk => s.getV_loadRegs_of_lt s.i hn (Nat.lt_succ_of_le hk), s.loadRegs_i s.i _, ?pc,
    exec_sameBut (i := .ldVxMem x) rfl⟩
  case pc => simp

/-- Settles O47: the start is the reading taken, and a magnitude of 0 reads 0 at every instant. -/
theorem timerSetCapturesNow : Obligations.TimerSetCapturesNow := by
  refine ⟨fun _ => decodeWord_of_op_x_subop rfl rfl, fun x s => ⟨_, rfl, rfl, s.clock.now_last.symm, s.clock.le_now,
    s.clock.now_reads, fun hzero u hu => ?_, rfl, (s.sameBut_timerSet _).advance⟩⟩
  exact State.timerGet_of_tInit_zero (hu.trans hzero)

/-- Settles O48: from a start no later than the reading, the differences of naturals are those of integers. -/
theorem timerReadSubtractsWholeTicks : Obligations.TimerReadSubtractsWholeTicks := by
  refine ⟨fun _ => decodeWord_of_op_x_subop rfl rfl, fun x s hstart => ?_, fun x s => ⟨_, rfl⟩⟩
  obtain ⟨t, h⟩ : ∃ t, exec (.ldVxDt x) s = .next t := ⟨_, rfl⟩
  obtain ⟨hclock, hreads⟩ := exec_ldVxDt_clock h
  have hpc : t.pc = s.pc + 2#16 := by
    obtain rfl := Host.Outcome.next.inj h
    rfl
  refine ⟨t, h, hclock, hreads, ?_, hpc, (exec_sameBut h).mono (by simp [mayChange])⟩
  rw [exec_ldVxDt_reg h]
  omega

/-- Settles O50: by whether a key is latched; each way advances PC and writes at most `V[x]`. -/
theorem keyWaitNeverBlocks : Obligations.KeyWaitNeverBlocks := by
  refine ⟨fun _ => decodeWord_of_op_x_subop rfl rfl, fun x s => ?_⟩
  cases hkey : s.key with
  | some c =>
    refine ⟨_, exec_ldVxK_some x hkey, ?_, by simp, rfl, (s.sameBut_setV x _).advance⟩
    intro c' hc
    obtain rfl := Option.some.inj hc
    rw [State.advance_getV, State.getV_setV_same]
    exact BitVec.toNat_setWidth_of_le (by decide)
  | none => exact ⟨_, exec_ldVxK_none x hkey, by simp, fun _ => rfl, rfl, exec_sameBut (exec_ldVxK_none x hkey)⟩

/-- Settles O51: the row ignores `x`, and the instruction is `advance`. -/
theorem soundTimerIsNoOp : Obligations.SoundTimerIsNoOp :=
  ⟨fun _ hop hkk => decodeWord_of_isReadFrom (isReadFrom_ldStVx_iff.mpr ⟨hop, hkk⟩), fun s =>
    ⟨_, rfl, rfl, s.sameBut_advance⟩⟩

end Sys2Proof.Machine
end

section
/-! SUPPORT. The step of a block that runs no instruction: at an illegal word, and after a fault (60_exceptions.md R201,
R205, R206). -/

namespace Sys2Proof.Machine

/-- Settles O7: the step is `raise` of the decode failure, whose record and frame are known. -/
theorem illegalWordRecordsDecodeFailure : Obligations.IllegalWordRecordsDecodeFailure := fun s _ hrun herr =>
  ⟨s.raise .decodeFailure s.fetchWord, step_of_error hrun herr, s.raise_run _ _, s.sameBut_raise _ _⟩

/-- Settles O8: `step` looks at the run state first. -/
theorem faultedBlockTakesNoStep : Obligations.FaultedBlockTakesNoStep := fun _ _ _ _ => step_of_faulted

end Sys2Proof.Machine
end

section
/-! SUPPORT. The host's operations reset, load and step: what each keeps, what an image leaves in memory, and what a
reset rebuilds (spec 70_reset_and_hazards.md R230, R233, R236, R243). -/

namespace Sys2Proof.Machine

/-! ### Construction and reset -/

/-- Construction under any launch parameters starts with `SP` at 0, the start instant `t` and the clock `k`: its two
writes to memory change memory alone. -/
theorem construct_eq_withMem (L : Launch) (k : Clock) (t drawn : Nat) :
    State.construct L k t drawn =
      { State.reset with
        v := L.regs, i := L.i, tStart := t, tInit := L.timer, clock := k,
        rng := { seed := L.seed, drawn := drawn, supplied := L.draws }, mem := (State.construct L k t drawn).mem } := by
  rw [State.construct, State.memWriteAll_eq, State.writeResetMem_eq]

theorem construct_memWf (L : Launch) (k : Clock) (t drawn : Nat) : (State.construct L k t drawn).mem.wf = true :=
  State.memWriteAll_wf _ _ (State.writeResetMem_wf _ Memory.wf_nil)

theorem construct_stateOk (L : Launch) {k : Clock} {t : Nat} (drawn : Nat) (ht : t ≤ k.last) :
    StateOk (State.construct L k t drawn) where
  mem := construct_memWf L k t drawn
  sp := by rw [construct_eq_withMem]; exact (by decide : 0x00#8 ≤ 15#8)
  time := by rw [construct_eq_withMem]; exact ht

/-- A reset is a construction whose start instant is the clock's latest reading. -/
theorem State.relaunch_stateOk (s : State) (L : Launch) : StateOk (s.relaunch L) :=
  construct_stateOk L s.rng.drawn (Clock.now_last _).ge

/-- A reset with a seed and no other parameter rebuilds the reset state, but for one reading of the clock, which is the
start instant, and the count of draws. -/
theorem State.relaunch_seed (s : State) (seed : Nat) :
    s.relaunch { seed := seed } =
      { State.reset with
        tStart := { s.clock with supplied := [] }.now.1, clock := { s.clock with supplied := [] }.now.2,
        rng := { seed := seed, drawn := s.rng.drawn, supplied := [] } } :=
  construct_seed seed _ _ _

theorem Clock.now_supplied_nil {k : Clock} (h : k.supplied = []) : k.now.2.supplied = [] := by
  simp [Clock.now, h]

theorem State.sameBut_withClocksAndRng (s : State) (t : Nat) (k : Clock) (g : RandomSource) :
    SameBut [.rng, .timer, .clock] s { s with tStart := t, clock := k, rng := g } := by
  constructor <;> simp [State.getV, State.memRead]

/-! ### Loading an image -/

/-- Memory after bytes are written in a row from `a` on: the byte at each address is the image's at that offset from
`a`, and the byte before past the image's end. -/
theorem State.memRead_memWriteAll (s : State) (a : Word) {l : List Byte} (hl : l.length ≤ 4096) (b : Word) :
    (s.memWriteAll a l).memRead b = (l[(b - a).toNat % 4096]?).getD (s.memRead b) := by
  induction l generalizing s a with
  | nil => rfl
  | cons d rest ih =>
    have hrest : rest.length < 4096 := hl
    rw [State.memWriteAll, ih (s.memWrite a d) (a + 1#16) hrest.le, State.memRead_memWrite]
    have hfirst : maskAddr b = maskAddr a ↔ (b - a).toNat % 4096 = 0 := by
      simpa using maskAddr_eq_iff a b 0 (by decide)
    have hshift : (b - (a + 1#16)).toNat % 4096 = ((b - a).toNat % 4096 + 4095) % 4096 := by bv_omega
    rw [hshift]
    by_cases hzero : (b - a).toNat % 4096 = 0
    · rw [if_pos (hfirst.mpr hzero), hzero, List.getElem?_eq_none (by simpa using Nat.le_of_lt_succ hrest)]
      rfl
    · obtain ⟨m, hm⟩ := Nat.exists_eq_succ_of_ne_zero hzero
      have hoffset : (m + 1 + 4095) % 4096 = m := by omega
      rw [if_neg (mt hfirst.mp hzero), hm, Nat.succ_eq_add_one, hoffset, List.getElem?_cons_succ]

/-- The offset of an address from 0x200: counted from 0x200 where the address is there or after, and past every image
where it is before. -/
theorem offset_from_programBase (a : Word) :
    (a - BitVec.ofNat 16 programBase).toNat % 4096 =
      if 0x200 ≤ maskAddr a then maskAddr a - 0x200 else maskAddr a + romMax := by
  rw [maskAddr_eq_mod, programBase, romMax]
  split <;> bv_omega

/-- Memory after an image that fits program space is written at 0x200. -/
theorem State.memRead_memWriteAll_programBase (s : State) {rom : List Byte} (hrom : rom.length ≤ romMax) (a : Word) :
    (s.memWriteAll (BitVec.ofNat 16 programBase) rom).memRead a =
      if 0x200 ≤ maskAddr a then (rom[maskAddr a - 0x200]?).getD (s.memRead a) else s.memRead a := by
  rw [State.memRead_memWriteAll s _ (hrom.trans (by decide)), offset_from_programBase]
  split
  · rfl
  · rw [List.getElem?_eq_none (Nat.le_add_left_of_le hrom)]
    rfl

theorem State.sameBut_memWriteAll (s : State) (a : Word) (l : List Byte) : SameBut [.mem] s (s.memWriteAll a l) := by
  constructor <;> simp

theorem State.loadRom_of_accepted (s : State) {rom : List Byte} (h : 1 ≤ rom.length ∧ rom.length ≤ romMax) :
    s.loadRom rom = .next (s.memWriteAll (BitVec.ofNat 16 programBase) rom) := if_pos h

theorem State.loadRom_of_rejected (s : State) {rom : List Byte} (h : ¬ (1 ≤ rom.length ∧ rom.length ≤ romMax)) :
    s.loadRom rom = .refused .romRejected := if_neg h

/-! ### What an accepted operation can do -/

section
variable {s t : State}

theorem eq_next_of_withDone {x : Result} {r : Reply} (h : withDone x = .next (t, r)) : x = .next t := by
  cases x with
  | next u => cases h; rfl
  | fault f => cases h
  | refused f => cases h

theorem State.loadRom_keeps_stateOk {rom : List Byte} (hok : StateOk s) (h : s.loadRom rom = .next t) : StateOk t := by
  by_cases hrom : 1 ≤ rom.length ∧ rom.length ≤ romMax
  · rw [s.loadRom_of_accepted hrom] at h
    obtain rfl := Host.Outcome.next.inj h
    exact ⟨State.memWriteAll_wf _ _ hok.mem, by simpa using hok.sp, by simpa using hok.time⟩
  · rw [s.loadRom_of_rejected hrom] at h
    cases h

/-- An accepted `SetKey` changes the latch alone. -/
theorem State.eq_withKey_of_setKey {k : Option Nat} (h : s.setKey k = .next t) : ∃ l, t = { s with key := l } := by
  unfold State.setKey at h
  split at h
  · exact ⟨_, (Host.Outcome.next.inj h).symm⟩
  · split at h
    · exact ⟨_, (Host.Outcome.next.inj h).symm⟩
    · cases h

theorem State.setKey_keeps_stateOk {k : Option Nat} (hok : StateOk s) (h : s.setKey k = .next t) : StateOk t := by
  obtain ⟨l, rfl⟩ := State.eq_withKey_of_setKey h
  exact ⟨hok.mem, hok.sp, hok.time⟩

end

/-! ### The statements -/

/-- Settles O12: by the operation; a reset meets `StateOk` from any state, and every other operation keeps it. -/
theorem hostOperationsKeepStateOk : Obligations.HostOperationsKeepStateOk := by
  intro s t op r hok h
  cases op with
  | reset L =>
    cases h
    exact s.relaunch_stateOk L
  | loadRom rom => exact State.loadRom_keeps_stateOk hok (eq_next_of_withDone h)
  | step => exact step_keeps_stateOk hok (eq_next_of_withDone h)
  | setKey k => exact State.setKey_keeps_stateOk hok (eq_next_of_withDone h)
  | snapshot | status =>
    cases h
    exact hok

/-- Settles O57: an accepted image is written in a row from 0x200, and 3584 is the bytes of program space. -/
theorem romIsLoadedAtProgramBase : Obligations.RomIsLoadedAtProgramBase := fun s _ =>
  ⟨fun hlen => ⟨_, congrArg withDone (s.loadRom_of_accepted hlen), s.sameBut_memWriteAll _ _,
      s.memRead_memWriteAll_programBase hlen.2⟩,
    fun hlen => congrArg withDone (s.loadRom_of_rejected (by rw [romMax]; omega))⟩

/-- Settles O59: by `relaunch_seed`, and what one reading does to the clock. -/
theorem resetReconstructsFromAnyState : Obligations.ResetReconstructsFromAnyState := by
  intro s seed
  refine ⟨s.relaunch { seed := seed }, rfl, ?_⟩
  rw [State.relaunch_seed]
  exact ⟨State.reset.sameBut_withClocksAndRng _ _ _, rfl, rfl, (Clock.now_last _).symm,
    Clock.le_now { s.clock with supplied := [] }, rfl, rfl, Clock.now_reads _, Clock.now_supplied_nil rfl⟩

end Sys2Proof.Machine
end
